-- ==== Sys2Proof/Word.lean ====
section
/-! DEFINITION. The word types of HTC: bus words, bytes, symbols, node indices and block addresses (R11, R70, R104). -/

namespace Sys2Proof

/-- A 32-bit bus word (R70). -/
abbrev Word := BitVec 32

/-- One byte lane of the port (R75), and the width of the cause and detail codes (R47, R48). -/
abbrev Byte := BitVec 8

/-- A symbol, zero-extended to the 16 bits a node word gives it (R14, R104). At most `SYM_W ≤ 16` bits are used (R7). -/
abbrev Symbol := BitVec 16

/-- A node index of `IDX_W = 15` bits (R8, R53). -/
abbrev NodeIdx := BitVec 15

/-- A byte address inside the block, 20 bits (R70, R74). -/
abbrev Addr := BitVec 20

end Sys2Proof
end

