-- ==== Sys2Proof/Config.lean ====
section
/-! DEFINITION. What one implementation of HTC fixes (the parameters of R7) and the free values of `⊥` reads (R80). -/

namespace Sys2Proof

/-- The implementation parameters of R7. They are held in State, as the read-only registers SYMW and the capacity
registers that show them (R42, R43), so every statement about all states is about all parameter values. -/
structure Params where
  /-- `SYM_W`: width in bits of one symbol. -/
  symW : Nat
  /-- `NODE_CAP`: entries in node memory. -/
  nodeCap : Nat
  /-- `SHAPE_CAP`: bits in the SHAPE buffer. -/
  shapeCap : Nat
  /-- `LEAF_CAP`: symbols in the LEAVES buffer. -/
  leafCap : Nat
  /-- `MSG_CAP`: bits in the MSG buffer. -/
  msgCap : Nat
  /-- `TEXT_CAP`: symbols in the TEXT buffer. -/
  textCap : Nat
  deriving DecidableEq, Repr

/-- The defaults of R7. -/
def Params.defaults : Params :=
  { symW := 8, nodeCap := 511, shapeCap := 1024, leafCap := 512, msgCap := 65536, textCap := 8192 }

/-- The legal ranges of R7. -/
abbrev Params.Legal (p : Params) : Prop :=
  (1 ≤ p.symW ∧ p.symW ≤ 16) ∧ (3 ≤ p.nodeCap ∧ p.nodeCap ≤ 16384) ∧
  (p.nodeCap ≤ p.shapeCap ∧ p.shapeCap ≤ 524288) ∧ ((p.nodeCap + 1) / 2 ≤ p.leafCap ∧ p.leafCap ≤ 16384) ∧
  (1 ≤ p.msgCap ∧ p.msgCap ≤ 524288) ∧ (1 ≤ p.textCap ∧ p.textCap ≤ 16384)

/-- `MAX_LEAVES` of R8. -/
def Params.maxLeaves (p : Params) : Nat := (p.nodeCap + 1) / 2

/-- `MAX_DEPTH` of R8: the longest root-to-leaf path, and so the longest code. -/
def Params.maxDepth (p : Params) : Nat := (p.nodeCap - 1) / 2

/-- The value of the `n`-th read of `⊥` (R12, R80): an arbitrary word, with no body, so that nothing can be proved of it.
A cell of fewer bits takes as many bits of the word as it has. Safe: a statement holds whatever the draws are (log entry 3). -/
opaque Config.freeWord : Nat → Word

end Sys2Proof
end

