-- ==== Sys2Proof/Machine/State.lean ====
section
/-! DEFINITION. The architectural state of HTC (R30), its value after reset (R59), and the reasons a step can stop. -/

namespace Sys2Proof.Machine

/-- Sparse storage: (index, value) pairs, indices strictly rising. An index that is not listed holds `⊥` (R12, R59). -/
abbrev Memory (α : Type) := List (Nat × α)

/-- The canonical form of a memory: indices strictly rising. No entry can equal what an unlisted index reads as, because an unlisted
index holds no value. -/
abbrev Memory.wf {α : Type} (m : Memory α) : Prop := m.Pairwise (fun a b => a.1 < b.1)

/-- A node entry that is not `⊥` (R53). -/
inductive Node where
  | leaf (sym : Symbol)
  | internal (zero one : NodeIdx)
  deriving DecidableEq, Repr

/-- The cause codes of R201, by name. -/
inductive Cause where
  | none
  | illegalCommand
  | noTree
  | treePresent
  | badLength
  | degenerateTree
  | malformedTree
  | unknownSymbol
  | malformedBitstream
  | capacity
  deriving DecidableEq, Repr

/-- The arguments of `raise Error(cause, detail, index)` (R12, R125). -/
structure Report where
  cause : Cause
  detail : Byte
  index : Nat
  deriving DecidableEq, Repr

/-- One host access as it reaches the port: an address of any width, of which the block sees 20 bits (R74), a size in bytes and the
byte enables (R70, R76). -/
structure Access where
  addr : Nat
  size : Nat
  lanes : BitVec 4
  deriving DecidableEq, Repr

/-- What one of the three agents of R10 does next. -/
inductive Event where
  /-- The engine is given the move: it performs the pending command, if there is one (R122). -/
  | engine
  /-- The hardware reset input is asserted (R230). -/
  | reset
  /-- The host reads one word (R71). -/
  | read (a : Access)
  /-- The host writes one word (R72). -/
  | write (a : Access) (v : Word)
  deriving DecidableEq, Repr

/-- The architectural state (R30), one field per item, and the model's own three fields at the end (log entries 1, 2 and 3). STATUS.BUSY,
STATUS.ERR and irq have no storage (R45, R56, R209). -/
structure State where
  /-- SYMW and the capacity registers: read-only, constant (R42, R43). -/
  params : Params
  /-- CTRL.IRQ_EN (R44). -/
  irqEn : Bool
  /-- STATUS.DONE (R45). -/
  done : Bool
  /-- STATUS.TREE_VALID (R45). -/
  treeValid : Bool
  /-- STATUS.WR_WHILE_BUSY (R45). -/
  wrWhileBusy : Bool
  /-- ERR_CAUSE[7:0] (R47). -/
  errCause : Byte
  /-- ERR_DETAIL[7:0] (R48). -/
  errDetail : Byte
  /-- ERR_INDEX (R49). -/
  errIndex : Word
  /-- SHAPE_LEN (R50). -/
  shapeLen : Word
  /-- LEAF_LEN (R50). -/
  leafLen : Word
  /-- MSG_LEN (R50). -/
  msgLen : Word
  /-- TEXT_LEN (R50). -/
  textLen : Word
  /-- NODE_COUNT (R51). -/
  nodeCount : Word
  /-- The bit cells of SHAPE (R54). -/
  shape : Memory Bool
  /-- The symbol cells of LEAVES (R55). -/
  leaves : Memory Symbol
  /-- The bit cells of MSG (R54). -/
  msg : Memory Bool
  /-- The symbol cells of TEXT (R55). -/
  text : Memory Symbol
  /-- Node memory (R52, R53). -/
  node : Memory Node
  /-- The hidden command state (R56). -/
  pend : Option Word
  /-- The model's own: which agent moves next, oldest first (R10, R245; log entry 1). -/
  agenda : List Event
  /-- The model's own: what the latest host read returned (R70; log entry 2). -/
  rdata : Option Word
  /-- The model's own: how many free values have been drawn (R80; log entry 3). -/
  draws : Nat
  deriving DecidableEq, Repr

/-- The state after reset (R59), with the default parameters of R7. The last three fields are DESIGN CHOICEs of log entries 1, 2 and 3. -/
def State.reset : State :=
  { params := Params.defaults
    irqEn := false
    done := false
    treeValid := false
    wrWhileBusy := false
    errCause := 0
    errDetail := 0
    errIndex := 0
    shapeLen := 0
    leafLen := 0
    msgLen := 0
    textLen := 0
    nodeCount := 0
    shape := []
    leaves := []
    msg := []
    text := []
    node := []
    pend := none
    agenda := []
    rdata := none
    draws := 0 }

/-- Why the machine stops with a fault. -/
inductive Fault where
  /-- Raised by a host read or write that is misaligned, or not a full 32-bit access: a host protocol violation, which R76 has a
  model refuse as a host fault. Safe: nothing can be claimed of such an access (log entry 6). -/
  | misaligned
  /-- Raised by FLATTEN, ENCODE or DECODE when a tree helper is called outside the domain of R129: it meets a `⊥` entry, or a chain of
  children longer than NODE_COUNT. Safe: no state that satisfies the invariants of R60 raises it (log entry 7). -/
  | nodeDomain
  deriving DecidableEq, Repr

/-- Why a step gives an instruction no meaning. -/
inductive Refusal where
  /-- Raised by an arm of exec that has no meaning yet; no arm of this model raises it. Safe: the machine stops. -/
  | notModelled (mnemonic : String)
  deriving DecidableEq, Repr

/-- The outcome of one step of this machine. -/
abbrev Result := Host.Outcome State Fault Refusal

end Sys2Proof.Machine
end

