-- ==== Sys2Proof/Machine/Ops.lean ====
section
/-! DEFINITION. The named operations over memory and registers: sparse cells, free values, reset (R231), issue (R120), completion (R124),
taking an error (R125) and its acknowledgement (R207). -/

namespace Sys2Proof.Machine

/-! ### Sparse storage -/

/-- The value of the cell at index `k`, or none when it holds `⊥`. -/
def Memory.cell {α : Type} : Memory α → Nat → Option α
  | [], _ => none
  | (a, v) :: m, k => if k = a then some v else Memory.cell m k

/-- Write the cell at index `k`, keeping the indices strictly rising. -/
def Memory.put {α : Type} : Memory α → Nat → α → Memory α
  | [], k, v => [(k, v)]
  | (a, w) :: m, k, v =>
      if k < a then (k, v) :: (a, w) :: m
      else if k = a then (k, v) :: m
      else (a, w) :: Memory.put m k v

/-- Write a sequence to the cells from index `k` on (R132). -/
def Memory.putList {α : Type} : Memory α → Nat → List α → Memory α
  | m, _, [] => m
  | m, k, v :: vs => Memory.putList (Memory.put m k v) (k + 1) vs

/-- Every cell `⊥`. -/
def Memory.clear {α : Type} : Memory α := []

/-! ### Symbols and free values -/

/-- `v[SYM_W-1:0]` as a symbol (R78). -/
def truncSym (symW : Nat) (v : Word) : Symbol := BitVec.ofNat 16 (v.toNat % 2 ^ symW)

/-- The draw a bit cell takes from the `n`-th free value (R80). -/
def drawBit (n : Nat) : Bool := (Config.freeWord n).getLsbD 0

/-- The draw a symbol cell takes from the `n`-th free value (R80). -/
def drawSym (symW n : Nat) : Symbol := truncSym symW (Config.freeWord n)

/-! ### Cause codes -/

/-- The cause codes of R201. -/
def Cause.code : Cause → Byte
  | .none => 0x00
  | .illegalCommand => 0x01
  | .noTree => 0x02
  | .treePresent => 0x03
  | .badLength => 0x04
  | .degenerateTree => 0x05
  | .malformedTree => 0x06
  | .unknownSymbol => 0x07
  | .malformedBitstream => 0x08
  | .capacity => 0x09

/-! ### Reset, issue and completion -/

/-- Hardware reset and soft reset (R231): every piece of architectural state at its value of R59. The parameters are constant
registers, and the model's own fields belong to the host and to the free values, so they stay. -/
def resetState (s : State) : State :=
  { State.reset with params := s.params, agenda := s.agenda, rdata := s.rdata, draws := s.draws }

/-- An accepted CMD write (R120): the word becomes pending, DONE and the error registers are cleared, nothing else changes. -/
def acceptCommand (w : Word) (s : State) : State :=
  { s with pend := some w, done := false, errCause := 0, errDetail := 0, errIndex := 0 }

/-- Normal completion (R122, R124): DONE is set, the error registers read 0, no command is pending. -/
def complete (s : State) : State :=
  { s with pend := none, done := true, errCause := 0, errDetail := 0, errIndex := 0 }

/-- Taking an error, the completion of R125: the error registers report it, DONE is set, no command is pending. The error outcome of
R126 is already in `s`. No state is saved and no control is transferred (R200). -/
def raiseError (r : Report) (s : State) : State :=
  { s with pend := none, done := true, errCause := r.cause.code, errDetail := r.detail
           errIndex := BitVec.ofNat 32 r.index }

/-- The host's acknowledgement, a write of 1 to STATUS.DONE (R207): DONE is cleared, the error registers keep their values. -/
def acknowledge (s : State) : State := { s with done := false }

end Sys2Proof.Machine
end

