-- ==== Sys2Proof/Machine/Operands.lean ====
section
/-! DEFINITION. The operands of commands and transactions: the input streams a command reads (R106, R133), the tree helpers of R129 to R131
and R161, the address map (R73) and the register map (R34). -/

namespace Sys2Proof.Machine

/-! ### Input streams -/

/-- The first `len` bits of a bit buffer as a command reads them, drawing the `k`-th from free value `d + k` where it is `⊥` (R80, R133). -/
def bitStream (m : Memory Bool) (len d : Nat) : List Bool :=
  (List.range len).map fun k => (m.cell k).getD (drawBit (d + k))

/-- The first `len` symbols of a symbol buffer as a command reads them (R80, R133). -/
def symStream (symW : Nat) (m : Memory Symbol) (len d : Nat) : List Symbol :=
  (List.range len).map fun k => (m.cell k).getD (drawSym symW (d + k))

/-- `SHAPE[0..SHAPE_LEN)` as UNFLATTEN reads it. -/
def State.shapeIn (s : State) : List Bool := bitStream s.shape s.shapeLen.toNat s.draws

/-- `LEAVES[0..LEAF_LEN)` as UNFLATTEN reads it; its draws follow those of SHAPE. -/
def State.leavesIn (s : State) : List Symbol :=
  symStream s.params.symW s.leaves s.leafLen.toNat (s.draws + s.shapeLen.toNat)

/-- `TEXT[0..TEXT_LEN)` as ENCODE reads it. -/
def State.textIn (s : State) : List Symbol := symStream s.params.symW s.text s.textLen.toNat s.draws

/-- `MSG[0..MSG_LEN)` as DECODE reads it. -/
def State.msgIn (s : State) : List Bool := bitStream s.msg s.msgLen.toNat s.draws

/-! ### CodeTree helpers over node memory -/

/-- `child(i, b)` of R129 for an internal node with children `z` and `o`. -/
def childOf (z o : NodeIdx) (b : Bool) : NodeIdx := if b then o else z

/-- `flatNode(i)` of R130, the shape and leaves of the subtree at `i`. The fuel bounds the depth; none when it runs out or a `⊥` entry is
met, which R129 keeps outside the domain. -/
def flatNode (m : Memory Node) : Nat → NodeIdx → Option (List Bool × List Symbol)
  | 0, _ => none
  | fuel + 1, i =>
    match m.cell i.toNat with
    | none => none
    | some (.leaf x) => some ([false], [x])
    | some (.internal z o) =>
      match flatNode m fuel z, flatNode m fuel o with
      | some (sz, lz), some (so, lo) => some (true :: (sz ++ so), lz ++ lo)
      | _, _ => none

/-- `leafPaths(i, p)` of R131, the leaves below `i` in pre-order with their paths. Fuel and none as in `flatNode`. -/
def leafPaths (m : Memory Node) : Nat → NodeIdx → List Bool → Option (List (Symbol × List Bool))
  | 0, _, _ => none
  | fuel + 1, i, p =>
    match m.cell i.toNat with
    | none => none
    | some (.leaf x) => some [(x, p)]
    | some (.internal z o) =>
      match leafPaths m fuel z (p ++ [false]), leafPaths m fuel o (p ++ [true]) with
      | some tz, some t1 => some (tz ++ t1)
      | _, _ => none

/-- `codeOf(x)` of R161: the path of the first pair in list order that holds `x`. -/
def codeOf : List (Symbol × List Bool) → Symbol → Option (List Bool)
  | [], _ => none
  | (y, p) :: table, x => if y = x then some p else codeOf table x

/-- The flattened form of the whole loaded tree, `flatNode(0)`. -/
def State.flatRoot (s : State) : Option (List Bool × List Symbol) := flatNode s.node s.nodeCount.toNat 0

/-- The code table of the loaded tree, `leafPaths(0, [])`. -/
def State.codeTable (s : State) : Option (List (Symbol × List Bool)) := leafPaths s.node s.nodeCount.toNat 0 []

/-! ### Address map -/

/-- The regions of R73. -/
inductive Region where
  | regs
  | shapeW
  | leavesW
  | msgW
  | textW
  | nodeW
  | unmapped
  deriving DecidableEq, Repr

/-- The 20-bit address the block sees: it ignores any address bits above bit 19 (R74). -/
def blockAddr (a : Nat) : Addr := BitVec.ofNat 20 a

/-- `region(addr)`, selected by `addr[19:16]` (R73). -/
def regionOf (a : Addr) : Region :=
  match (a.extractLsb' 16 4).toNat with
  | 0x0 => .regs
  | 0x1 => .shapeW
  | 0x2 => .leavesW
  | 0x3 => .msgW
  | 0x4 => .textW
  | 0x5 => .nodeW
  | _ => .unmapped

/-- `addr[15:0]`, the offset inside a region. -/
def offsetOf (a : Addr) : Nat := (a.extractLsb' 0 16).toNat

/-- The word index `addr[15:2]` inside a window (R74). -/
def wordIndex (a : Addr) : Nat := (a.extractLsb' 2 14).toNat

/-- Whether a transaction is one the port supports: 4-byte aligned, size 4, all byte lanes enabled (R76). -/
def Access.ok (a : Access) : Bool := a.addr % 4 == 0 && a.size == 4 && a.lanes == 0xF

/-! ### Register map -/

/-- The registers of R34. -/
inductive Reg where
  | id
  | symw
  | nodeCapR
  | shapeCapR
  | leafCapR
  | msgCapR
  | textCapR
  | ctrl
  | status
  | cmd
  | errCause
  | errDetail
  | errIndex
  | shapeLen
  | leafLen
  | msgLen
  | textLen
  | nodeCount
  deriving DecidableEq, Repr

/-- The register at an offset, or none at a reserved offset (R34). -/
def regAt (offset : Nat) : Option Reg :=
  match offset with
  | 0x000 => some .id
  | 0x004 => some .symw
  | 0x008 => some .nodeCapR
  | 0x00C => some .shapeCapR
  | 0x010 => some .leafCapR
  | 0x014 => some .msgCapR
  | 0x018 => some .textCapR
  | 0x020 => some .ctrl
  | 0x024 => some .status
  | 0x028 => some .cmd
  | 0x02C => some .errCause
  | 0x030 => some .errDetail
  | 0x034 => some .errIndex
  | 0x040 => some .shapeLen
  | 0x044 => some .leafLen
  | 0x048 => some .msgLen
  | 0x04C => some .textLen
  | 0x050 => some .nodeCount
  | _ => none

/-- The registers a host read finds `⊥` in the busy window: the length registers and NODE_COUNT (R242). -/
def Reg.hiddenWhileBusy : Reg → Bool
  | .shapeLen => true
  | .leafLen => true
  | .msgLen => true
  | .textLen => true
  | .nodeCount => true
  | _ => false

/-- The registers whose writes take effect in the busy window (R241). -/
def Reg.writableWhileBusy : Reg → Bool
  | .ctrl => true
  | .status => true
  | _ => false

end Sys2Proof.Machine
end

