-- ==== Sys2Proof/Machine/Codec.lean ====
section
/-! DEFINITION. The text codec commands: ENCODE (R162) and DECODE (R163). -/

namespace Sys2Proof.Machine

/-! ### ENCODE -/

/-- The loop of ENCODE (R162) from text position `i` on, with the bits output so far. -/
def encodeText (table : List (Symbol × List Bool)) (msgCap : Nat) : Nat → List Symbol → List Bool → Except Report (List Bool)
  | _, [], out => .ok out
  | i, x :: xs, out =>
    match codeOf table x with
    | none => .error ⟨.unknownSymbol, 0, i⟩
    | some p =>
      if out.length + p.length > msgCap then .error ⟨.capacity, 3, i⟩
      else encodeText table msgCap (i + 1) xs (out ++ p)

/-- The free values counted once ENCODE's data phase has read the text (log entry 3). -/
def drawnByEncode (s : State) : Nat := s.draws + s.textLen.toNat

/-- ENCODE's data phase with the code table it has built (R161, R162). An error sets MSG_LEN to 0 and every MSG cell to `⊥` (R126). -/
def encodeWith (table : List (Symbol × List Bool)) (s : State) : State :=
  match encodeText table s.params.msgCap 0 s.textIn [] with
  | .error r => raiseError r { s with msg := Memory.clear, msgLen := 0, draws := drawnByEncode s }
  | .ok out =>
    complete { s with msg := s.msg.putList 0 out, msgLen := BitVec.ofNat 32 out.length, draws := drawnByEncode s }

/-- ENCODE (R162): the check phase in the order of R205, then the data phase. -/
def execEncode (s : State) : Result :=
  if s.treeValid = false then .next (raiseError ⟨.noTree, 0, 0⟩ s)
  else if s.textLen.toNat > s.params.textCap then .next (raiseError ⟨.badLength, 4, 0⟩ s)
  else
    match s.node.cell 0 with
    | none => .fault .nodeDomain
    | some (.leaf _) => .next (raiseError ⟨.degenerateTree, 0, 0⟩ s)
    | some (.internal _ _) =>
      match s.codeTable with
      | none => .fault .nodeDomain
      | some table => .next (encodeWith table s)

/-! ### DECODE -/

/-- How DECODE's data phase can end early: by an error, or by a node read outside the domain of R129. -/
inductive Stop where
  | raise (r : Report)
  | domain
  deriving DecidableEq, Repr

/-- The loop of DECODE (R163) from message position `j` on, with the cursor, the start of the code being read, and the symbols output so
far. -/
def decodeBits (m : Memory Node) (textCap : Nat) : Nat → List Bool → NodeIdx → Nat → List Symbol → Except Stop (List Symbol)
  | _, [], cur, start, out =>
    if cur ≠ 0 then .error (.raise ⟨.malformedBitstream, 0, start⟩) else .ok out
  | j, b :: bs, cur, start, out =>
    match m.cell cur.toNat with
    | none => .error .domain
    | some (.leaf _) => .error .domain
    | some (.internal z o) =>
      match m.cell (childOf z o b).toNat with
      | none => .error .domain
      | some (.leaf x) =>
        if out.length = textCap then .error (.raise ⟨.capacity, 4, j⟩)
        else decodeBits m textCap (j + 1) bs 0 (j + 1) (out ++ [x])
      | some (.internal _ _) => decodeBits m textCap (j + 1) bs (childOf z o b) start out

/-- The free values counted once DECODE's data phase has read the message (log entry 3). -/
def drawnByDecode (s : State) : Nat := s.draws + s.msgLen.toNat

/-- DECODE (R163): the check phase in the order of R205, then the data phase. A data-phase error sets TEXT_LEN to 0 and every TEXT cell
to `⊥` (R126). -/
def execDecode (s : State) : Result :=
  if s.treeValid = false then .next (raiseError ⟨.noTree, 0, 0⟩ s)
  else if s.msgLen.toNat > s.params.msgCap then .next (raiseError ⟨.badLength, 3, 0⟩ s)
  else
    match s.node.cell 0 with
    | none => .fault .nodeDomain
    | some (.leaf _) => .next (raiseError ⟨.degenerateTree, 0, 0⟩ s)
    | some (.internal _ _) =>
      match decodeBits s.node s.params.textCap 0 s.msgIn 0 0 [] with
      | .error .domain => .fault .nodeDomain
      | .error (.raise r) =>
        .next (raiseError r { s with text := Memory.clear, textLen := 0, draws := drawnByDecode s })
      | .ok out =>
        .next (complete { s with text := s.text.putList 0 out, textLen := BitVec.ofNat 32 out.length
                                 draws := drawnByDecode s })

end Sys2Proof.Machine
end

