-- ==== Sys2Proof/Machine/Flattener.lean ====
section
/-! DEFINITION. The tree flattener and unflattener commands: UNFLATTEN (R140) and FLATTEN (R142). -/

namespace Sys2Proof.Machine

/-! ### UNFLATTEN -/

/-- The variables of UNFLATTEN's data phase (R140): what remains of the two streams, the positions `s` and `l`, the nodes allocated `n`
and node memory. -/
structure Build where
  shape : List Bool
  leaves : List Symbol
  s : Nat
  l : Nat
  n : Nat
  node : Memory Node
  deriving DecidableEq, Repr

/-- `build()` of R140: one subtree, allocated in pre-order; the index of its root and the variables after it. The fuel bounds the depth
and starts as the length of the shape stream: each level below the root has taken a bit, so it runs out only where the stream does. -/
def buildNode (nodeCap : Nat) : Nat → Build → Except Report (Nat × Build)
  | 0, b => .error ⟨.malformedTree, 1, b.s⟩
  | fuel + 1, b =>
    match b.shape with
    | [] => .error ⟨.malformedTree, 1, b.s⟩
    | bit :: rest =>
      if b.n = nodeCap then .error ⟨.capacity, 1, b.s⟩
      else if bit = false then
        match b.leaves with
        | [] => .error ⟨.malformedTree, 2, b.s⟩
        | x :: ls =>
          .ok (b.n, { shape := rest, leaves := ls, s := b.s + 1, l := b.l + 1, n := b.n + 1
                      node := b.node.put b.n (.leaf x) })
      else
        match buildNode nodeCap fuel { b with shape := rest, s := b.s + 1, n := b.n + 1 } with
        | .error r => .error r
        | .ok (z, bz) =>
          match buildNode nodeCap fuel bz with
          | .error r => .error r
          | .ok (o, bo) =>
            .ok (b.n, { bo with node := bo.node.put b.n (.internal (BitVec.ofNat 15 z) (BitVec.ofNat 15 o)) })

/-- UNFLATTEN's data phase (R140): the number of nodes and node memory, or the first error in processing order. -/
def unflattenStreams (nodeCap : Nat) (node : Memory Node) (shape : List Bool) (leaves : List Symbol) :
    Except Report (Nat × Memory Node) :=
  match buildNode nodeCap shape.length { shape := shape, leaves := leaves, s := 0, l := 0, n := 0, node := node } with
  | .error r => .error r
  | .ok (_, b) =>
    if b.shape ≠ [] then .error ⟨.malformedTree, 3, b.s⟩
    else if b.leaves ≠ [] then .error ⟨.malformedTree, 4, b.l⟩
    else .ok (b.n, b.node)

/-- The free values counted once UNFLATTEN's data phase has read its two streams (log entry 3). -/
def drawnByUnflatten (s : State) : Nat := s.draws + s.shapeLen.toNat + s.leafLen.toNat

/-- UNFLATTEN (R140): the check phase in the order of R205, then the data phase; a data-phase error leaves every node entry `⊥` and the
other state as it was (R126). -/
def execUnflatten (s : State) : Result :=
  if s.treeValid then .next (raiseError ⟨.treePresent, 0, 0⟩ s)
  else if s.shapeLen.toNat > s.params.shapeCap then .next (raiseError ⟨.badLength, 1, 0⟩ s)
  else if s.leafLen.toNat > s.params.leafCap then .next (raiseError ⟨.badLength, 2, 0⟩ s)
  else
    match unflattenStreams s.params.nodeCap s.node s.shapeIn s.leavesIn with
    | .error r => .next (raiseError r { s with node := Memory.clear, draws := drawnByUnflatten s })
    | .ok (n, node) =>
      .next (complete { s with node := node, nodeCount := BitVec.ofNat 32 n, treeValid := true
                               draws := drawnByUnflatten s })

/-! ### FLATTEN -/

/-- FLATTEN (R142): NO_TREE without a tree; otherwise the flattened form of the tree goes to SHAPE and LEAVES from position 0, and its
lengths to SHAPE_LEN and LEAF_LEN. -/
def execFlatten (s : State) : Result :=
  if s.treeValid = false then .next (raiseError ⟨.noTree, 0, 0⟩ s)
  else
    match s.flatRoot with
    | none => .fault .nodeDomain
    | some (sh, lv) =>
      .next (complete { s with shape := s.shape.putList 0 sh, shapeLen := BitVec.ofNat 32 sh.length
                               leaves := s.leaves.putList 0 lv, leafLen := BitVec.ofNat 32 lv.length })

end Sys2Proof.Machine
end

