-- ==== Sys2Proof/Syntax.lean ====
section
/-! DEFINITION. The commands of HTC (R100), one constructor for each row of spec/opcode_table.json. -/

namespace Sys2Proof

/-- A command. The five commands take no operands (R105). `illegal` is the table's ILLEGAL row: it keeps the command word,
which settles the detail code the engine reports (R103). -/
inductive Instr where
  /-- Rebuild the tree in node memory from SHAPE and LEAVES (R140). -/
  | unflatten
  /-- Write the loaded tree's flattened form into SHAPE and LEAVES (R142). -/
  | flatten
  /-- Encode TEXT into MSG (R162). -/
  | encode
  /-- Decode MSG into TEXT (R163). -/
  | decode
  /-- Free the loaded tree (R180). -/
  | release
  /-- Any word R102 does not list (R103). -/
  | illegal (word : Word)
  deriving DecidableEq, Repr

end Sys2Proof
end

