-- ==== Sys2Proof/WellFormed.lean ====
section
/-! DEFINITION. Which terms of Instr stand for a command word: an `illegal` term must hold a word that R102 does not list. -/

namespace Sys2Proof

/-- A word R102 lists: reserved bits zero and opcode 1 to 5. -/
def listedWord (w : Word) : Bool :=
  w == 0x00000001 || w == 0x00000002 || w == 0x00000003 || w == 0x00000004 || w == 0x00000005

/-- An instruction is well formed unless it calls a listed command word illegal (R102, R103). -/
def Instr.wf : Instr → Bool
  | .unflatten => true
  | .flatten => true
  | .encode => true
  | .decode => true
  | .release => true
  | .illegal w => !listedWord w

end Sys2Proof
end

