-- ==== Sys2Proof/Decode.lean ====
section
/-! DEFINITION. The decoder of R107, total on every command word, and the encoder of R102. The bytes of a word are laid out in the
little-endian lanes of R75. -/

namespace Sys2Proof

/-- OPCODE, bits [3:0] of a command word (R101). -/
def opcodeField (w : Word) : BitVec 4 := w.extractLsb' 0 4

/-- RSVD, bits [31:4] of a command word, which must be 0 (R101). -/
def rsvdField (w : Word) : BitVec 28 := w.extractLsb' 4 28

/-- The decoder of R107. -/
def decode (w : Word) : Instr :=
  if rsvdField w ≠ 0 then .illegal w
  else
    match (opcodeField w).toNat with
    | 1 => .unflatten
    | 2 => .flatten
    | 3 => .encode
    | 4 => .decode
    | 5 => .release
    | _ => .illegal w

/-- The detail code of an illegal word: 2 (RESERVED_BITS) when bits [31:4] are not 0, whatever the opcode, otherwise
1 (RESERVED_OPCODE) (R103, R202). -/
def illegalDetail (w : Word) : Byte := if rsvdField w ≠ 0 then 2 else 1

/-- The command word of an instruction (R102): RSVD zero and its OPCODE. -/
def encode : Instr → Word
  | .unflatten => 0x00000001
  | .flatten => 0x00000002
  | .encode => 0x00000003
  | .decode => 0x00000004
  | .release => 0x00000005
  | .illegal w => w

/-- Why a list of bytes holds no command word. -/
inductive DecodeError where
  /-- A command word is exactly four bytes (R101, R108); this list has another length. -/
  | notOneWord (bytes : Nat)
  deriving DecidableEq, Repr

/-- The four byte lanes of a word, lowest address first (R75). -/
def wordBytes (w : Word) : List Byte :=
  [w.extractLsb' 0 8, w.extractLsb' 8 8, w.extractLsb' 16 8, w.extractLsb' 24 8]

/-- Decode the bytes of one command word, lowest address first (R75, R107). No command takes a second word (R101). -/
def decodeBytes : List Byte → Except DecodeError Instr
  | [b0, b1, b2, b3] => .ok (decode ((b3 ++ b2 ++ b1 ++ b0 : BitVec 32)))
  | bs => .error (.notOneWord bs.length)

/-- The command the decoder reads from a table word `w` of `nbits` bits: bit 0 is the least significant bit of the one word a
command has, and the bits above `nbits` are 0. -/
def decodeTableWord (nbits w : Nat) : Option Instr :=
  match decodeBytes (wordBytes (BitVec.ofNat 32 (w % 2 ^ nbits))) with
  | .ok i => some i
  | .error _ => none

end Sys2Proof
end

