-- ==== Sys2Proof/Machine/Lifecycle.lean ====
section
/-! DEFINITION. The tree lifecycle command RELEASE (R180), and what an illegal command word does (R103). -/

namespace Sys2Proof.Machine

/-- RELEASE (R180): NO_TREE without a tree; otherwise TREE_VALID and NODE_COUNT go to 0 and every node entry becomes `⊥`. -/
def execRelease (s : State) : Result :=
  if s.treeValid = false then .next (raiseError ⟨.noTree, 0, 0⟩ s)
  else .next (complete { s with treeValid := false, nodeCount := 0, node := Memory.clear })

/-- An illegal command word completes with ILLEGAL_COMMAND and no other effect (R103, R126). -/
def execIllegal (word : Word) (s : State) : Result :=
  .next (raiseError ⟨.illegalCommand, illegalDetail word, 0⟩ s)

end Sys2Proof.Machine
end

