-- ==== Sys2Proof/Machine/Flags.lean ====
section
/-! DEFINITION. The flags of HTC (R58): the bits of STATUS (R45), which of them have no storage, and the interrupt output (R209). -/

namespace Sys2Proof.Machine

/-- STATUS.BUSY: 1 exactly when a command is pending (R56). -/
def State.busy (s : State) : Bool := s.pend.isSome

/-- STATUS.ERR: 1 exactly when ERR_CAUSE is not 0 (R45). -/
def State.err (s : State) : Bool := s.errCause != 0

/-- The interrupt output: CTRL.IRQ_EN and STATUS.DONE (R209). -/
def State.irq (s : State) : Bool := s.irqEn && s.done

/-- A flag at bit `k` of a register. -/
def flagBit (b : Bool) (k : Nat) : Word := if b then BitVec.ofNat 32 (2 ^ k) else 0

/-- STATUS as the host reads it (R45): BUSY 0, DONE 1, ERR 2, TREE_VALID 3, WR_WHILE_BUSY 4, bits [31:5] zero. -/
def statusWord (s : State) : Word :=
  flagBit s.busy 0 ||| flagBit s.done 1 ||| flagBit s.err 2 ||| flagBit s.treeValid 3 ||| flagBit s.wrWhileBusy 4

/-- CTRL as the host reads it (R44): IRQ_EN in bit 0, SOFT_RESET reads 0. -/
def ctrlWord (s : State) : Word := flagBit s.irqEn 0

/-- A write to STATUS (R45): bit 1 clears DONE and bit 4 clears WR_WHILE_BUSY, the other bits are read-only. -/
def writeStatus (v : Word) (s : State) : State :=
  let s₁ := if v.getLsbD 1 then acknowledge s else s
  if v.getLsbD 4 then { s₁ with wrWhileBusy := false } else s₁

/-- A write to CTRL (R44): with bit 1 set it is a reset, which leaves IRQ_EN 0 whatever bit 0 is; otherwise bit 0 is stored. -/
def writeCtrl (v : Word) (s : State) : State :=
  if v.getLsbD 1 then resetState s else { s with irqEn := v.getLsbD 0 }

end Sys2Proof.Machine
end

