-- ==== Sys2Proof/Machine/Port.lean ====
section
/-! DEFINITION. The host port (R70 to R82): reads and writes of registers and windows, and the busy-time rules (R241, R242). -/

namespace Sys2Proof.Machine

/-! ### Windows -/

/-- The low `n` bits given by `f`, bit `j` being `f j`. -/
def packBits (f : Nat → Bool) : (n : Nat) → BitVec n
  | 0 => 0#0
  | n + 1 => BitVec.cons (f n) (packBits f n)

/-- A read of word `w` of a packed bit window (R77): bit `j` is cell `32 * w + j`, or 0 past the capacity. A `⊥` cell takes bit `j` of the
free word, a draw of its own (R80). -/
def readBitWord (cap : Nat) (m : Memory Bool) (free : Word) (w : Nat) : Word :=
  packBits (fun j => if 32 * w + j < cap then (m.cell (32 * w + j)).getD (free.getLsbD j) else false) 32

/-- The bits of a written word that lie below the capacity, least significant first (R77). -/
def bitsBelow (cap w : Nat) (v : Word) : List Bool := ((List.range 32).map v.getLsbD).take (cap - 32 * w)

/-- A write of word `w` of a packed bit window (R77): the cells of the word below the capacity are written, the others ignored. -/
def writeBitWord (cap : Nat) (m : Memory Bool) (w : Nat) (v : Word) : Memory Bool :=
  m.putList (32 * w) (bitsBelow cap w v)

/-- A read of word `w` of a symbol window (R78): the cell zero-extended, or 0 past the capacity. -/
def readSymWord (symW cap : Nat) (m : Memory Symbol) (free : Word) (w : Nat) : Word :=
  if w < cap then ((m.cell w).getD (truncSym symW free)).setWidth 32 else 0

/-- A write of word `w` of a symbol window (R78): the low SYM_W bits are stored, or nothing past the capacity. -/
def writeSymWord (symW cap : Nat) (m : Memory Symbol) (w : Nat) (v : Word) : Memory Symbol :=
  if w < cap then m.put w (truncSym symW v) else m

/-- The node word of an entry (R104). -/
def nodeWord : Node → Word
  | .leaf x => 0x80000000 ||| x.setWidth 32
  | .internal z o => (z.setWidth 32 <<< 16) ||| o.setWidth 32

/-- A read of word `w` of the node window (R79): the node word of the entry, an arbitrary word for `⊥`, or 0 past the capacity. -/
def readNodeWord (cap : Nat) (m : Memory Node) (free : Word) (w : Nat) : Word :=
  if w < cap then (m.cell w).elim free nodeWord else 0

/-! ### Registers -/

/-- The ID register's constant (R41). -/
def idWord : Word := 0x48544301

/-- What a register reads outside the busy window (R41 to R51). CMD is write-only and reads 0 (R46). -/
def readReg (s : State) : Reg → Word
  | .id => idWord
  | .symw => BitVec.ofNat 32 (s.params.symW % 2 ^ 5)
  | .nodeCapR => BitVec.ofNat 32 s.params.nodeCap
  | .shapeCapR => BitVec.ofNat 32 s.params.shapeCap
  | .leafCapR => BitVec.ofNat 32 s.params.leafCap
  | .msgCapR => BitVec.ofNat 32 s.params.msgCap
  | .textCapR => BitVec.ofNat 32 s.params.textCap
  | .ctrl => ctrlWord s
  | .status => statusWord s
  | .cmd => 0
  | .errCause => s.errCause.setWidth 32
  | .errDetail => s.errDetail.setWidth 32
  | .errIndex => s.errIndex
  | .shapeLen => s.shapeLen
  | .leafLen => s.leafLen
  | .msgLen => s.msgLen
  | .textLen => s.textLen
  | .nodeCount => s.nodeCount

/-- A write to a register outside the busy window (R33, R44 to R51): CTRL, STATUS and CMD have their effects, a length register stores any
value, the read-only registers ignore it. -/
def writeReg (s : State) (v : Word) : Reg → State
  | .ctrl => writeCtrl v s
  | .status => writeStatus v s
  | .cmd => acceptCommand v s
  | .shapeLen => { s with shapeLen := v }
  | .leafLen => { s with leafLen := v }
  | .msgLen => { s with msgLen := v }
  | .textLen => { s with textLen := v }
  | .id => s
  | .symw => s
  | .nodeCapR => s
  | .shapeCapR => s
  | .leafCapR => s
  | .msgCapR => s
  | .textCapR => s
  | .errCause => s
  | .errDetail => s
  | .errIndex => s
  | .nodeCount => s

/-! ### Transactions -/

/-- The word a read of `addr` returns (R71, R242), with `free` the draw for whatever is `⊥`. In the busy window every window word, mapped
cell or not, and the hidden registers are `⊥` (log entry 12). -/
def readWord (s : State) (free : Word) (addr : Addr) : Word :=
  match regionOf addr with
  | .regs =>
    match regAt (offsetOf addr) with
    | none => 0
    | some r => if s.busy && r.hiddenWhileBusy then free else readReg s r
  | .shapeW => if s.busy then free else readBitWord s.params.shapeCap s.shape free (wordIndex addr)
  | .leavesW => if s.busy then free else readSymWord s.params.symW s.params.leafCap s.leaves free (wordIndex addr)
  | .msgW => if s.busy then free else readBitWord s.params.msgCap s.msg free (wordIndex addr)
  | .textW => if s.busy then free else readSymWord s.params.symW s.params.textCap s.text free (wordIndex addr)
  | .nodeW => if s.busy then free else readNodeWord s.params.nodeCap s.node free (wordIndex addr)
  | .unmapped => 0

/-- Whether a write of `addr` takes effect while BUSY = 1: only those of CTRL and STATUS do (R72, R241). -/
def writableWhileBusy (addr : Addr) : Bool :=
  match regionOf addr, regAt (offsetOf addr) with
  | .regs, some r => r.writableWhileBusy
  | _, _ => false

/-- The effect of a write that is not dropped (R72). The node window, reserved offsets and unmapped addresses ignore it. -/
def storeWord (s : State) (addr : Addr) (v : Word) : State :=
  match regionOf addr with
  | .regs =>
    match regAt (offsetOf addr) with
    | none => s
    | some r => writeReg s v r
  | .shapeW => { s with shape := writeBitWord s.params.shapeCap s.shape (wordIndex addr) v }
  | .leavesW => { s with leaves := writeSymWord s.params.symW s.params.leafCap s.leaves (wordIndex addr) v }
  | .msgW => { s with msg := writeBitWord s.params.msgCap s.msg (wordIndex addr) v }
  | .textW => { s with text := writeSymWord s.params.symW s.params.textCap s.text (wordIndex addr) v }
  | .nodeW => s
  | .unmapped => s

/-- `MemWrite(addr, 4, v)` (R72): in the busy window any write but those of CTRL and STATUS is dropped and recorded in WR_WHILE_BUSY. -/
def writeWord (s : State) (addr : Addr) (v : Word) : State :=
  if s.busy && !writableWhileBusy addr then { s with wrWhileBusy := true } else storeWord s addr v

/-- A host read (R71). It changes nothing but the port's answer and the count of draws (R82); an access that is not aligned and full is a
host fault (R76). -/
def hostRead (a : Access) (s : State) : Result :=
  if a.ok then
    .next { s with rdata := some (readWord s (Config.freeWord s.draws) (blockAddr a.addr)), draws := s.draws + 1 }
  else .fault .misaligned

/-- A host write (R72); an access that is not aligned and full is a host fault (R76). -/
def hostWrite (a : Access) (v : Word) (s : State) : Result :=
  if a.ok then .next (writeWord s (blockAddr a.addr) v) else .fault .misaligned

end Sys2Proof.Machine
end

