-- ==== Sys2Proof/Machine/Engine.lean ====
section
/-! DEFINITION. The three agents of R10: the engine's atomic step (R122), the host's transactions and the reset input. -/

namespace Sys2Proof.Machine

/-- The engine's step (R122): the pending command is decoded and performed; without one the step is not enabled, and the idle block holds
its state (R218). -/
def engineStep (s : State) : Result :=
  match s.pend with
  | none => .next s
  | some w => exec (decode w) s

/-- What an agent's move does to the state. -/
def agentStep (e : Event) (s : State) : Result :=
  match e with
  | .engine => engineStep s
  | .reset => .next (resetState s)
  | .read a => hostRead a s
  | .write a v => hostWrite a v s

/-- The state with a command word accepted and the engine given the next move: what a CMD write of the word (R120), followed by the
engine's move before any other agent's, runs from. -/
def placeCommand (s : State) (w : Word) : State :=
  { acceptCommand w s with agenda := .engine :: s.agenda }

end Sys2Proof.Machine
end

