-- ==== Sys2Proof/Machine/Step.lean ====
section
/-! DEFINITION. One step of the machine: the agent whose turn it is moves. -/

namespace Sys2Proof.Machine

/-- One step. The oldest event of the agenda is taken off and performed; with an empty agenda the engine moves, so a pending command
always completes in the end (R245). -/
def step (s : State) : Host.Outcome State Fault Refusal :=
  match s.agenda with
  | [] => engineStep s
  | e :: rest => agentStep e { s with agenda := rest }

/-- The state whose very next step performs the command word `w` of `nbits` bits: the word is accepted (R120) and the engine has the next
move (log entry 5). -/
def State.withFetchWord (s : State) (nbits w : Nat) : State :=
  placeCommand s (BitVec.ofNat 32 (w % 2 ^ nbits))

end Sys2Proof.Machine
end

