-- ==== Sys2Proof/Machine/Tree.lean ====
section
/-! DEFINITION. The tree data model (R16 to R20): trees, their flattened form, their paths, and their pre-order image in node memory
(R52). The commands work on node memory; these definitions say what it represents. -/

namespace Sys2Proof.Machine

/-- A strictly owned binary tree: a leaf with its symbol, or a node with both children present (R16). -/
inductive CodeTree where
  | leaf (sym : Symbol)
  | node (zero one : CodeTree)
  deriving DecidableEq, Repr

/-- The number of nodes of a tree; `size(j)` of R52. -/
def CodeTree.size : CodeTree → Nat
  | .leaf _ => 1
  | .node z o => 1 + z.size + o.size

/-- The number of leaves of a tree. -/
def CodeTree.leafCount : CodeTree → Nat
  | .leaf _ => 1
  | .node z o => z.leafCount + o.leafCount

/-- The length of the longest root-to-leaf path (R8). -/
def CodeTree.depth : CodeTree → Nat
  | .leaf _ => 0
  | .node z o => 1 + max z.depth o.depth

/-- The shape stream of R19. -/
def CodeTree.shape : CodeTree → List Bool
  | .leaf _ => [false]
  | .node z o => true :: (z.shape ++ o.shape)

/-- The leaf-symbol stream of R19. -/
def CodeTree.leaves : CodeTree → List Symbol
  | .leaf x => [x]
  | .node z o => z.leaves ++ o.leaves

/-- A sequence pair is well formed when it is the flattened form of some tree (R20). -/
def WellFormedPair (shape : List Bool) (leaves : List Symbol) : Prop :=
  ∃ t : CodeTree, shape = t.shape ∧ leaves = t.leaves

/-- The leaves of a tree in pre-order, zero first, each with its path (R17, R131). -/
def CodeTree.paths : CodeTree → List (Symbol × List Bool)
  | .leaf x => [(x, [])]
  | .node z o =>
      z.paths.map (fun e => (e.1, false :: e.2)) ++ o.paths.map (fun e => (e.1, true :: e.2))

/-- Whether a tree is degenerate: its root is a leaf (R160). -/
def CodeTree.degenerate : CodeTree → Bool
  | .leaf _ => true
  | .node _ _ => false

/-- The pre-order layout of a tree whose root stands at index `i` (R52): the zero child at `i + 1`, the one child past the zero subtree. -/
def CodeTree.layout : CodeTree → Nat → List Node
  | .leaf x, _ => [.leaf x]
  | .node z o, i =>
      .internal (BitVec.ofNat 15 (i + 1)) (BitVec.ofNat 15 (i + 1 + z.size)) ::
        (z.layout (i + 1) ++ o.layout (i + 1 + z.size))

end Sys2Proof.Machine
end

