-- ==== Sys2Proof/Safety.lean ====
section
/-! DEFINITION. What a sound state of HTC is: the tree a state holds (R52), and the invariants of R60 with the legality of what State stores. -/

namespace Sys2Proof.Machine

/-- The memory is canonical and every index it lists is below the capacity. -/
def Memory.Fits {α : Type} (cap : Nat) (m : Memory α) : Prop := m.wf ∧ ∀ k, cap ≤ k → m.cell k = none

/-- Every symbol stored is a SYM_W-bit symbol (R55). -/
def SymsFit (symW : Nat) (m : Memory Symbol) : Prop := ∀ k x, m.cell k = some x → x.toNat < 2 ^ symW

/-- Node memory holds the tree `t` in the pre-order layout of R52: NODE_COUNT is its size, its nodes stand from index 0 on, and every other
entry is `⊥`. -/
structure State.HoldsTree (s : State) (t : CodeTree) : Prop where
  valid : s.treeValid = true
  count : s.nodeCount.toNat = t.size
  fits : t.size ≤ s.params.nodeCap
  image : ∀ k, s.node.cell k = (t.layout 0)[k]?

/-- Node memory holds the subtree `t` in pre-order layout with its root at index `i` (R52). -/
def SubtreeAt (m : Memory Node) (i : Nat) (t : CodeTree) : Prop := ∀ k, k < t.size → m.cell (i + k) = (t.layout i)[k]?

/-- R52's places for the children of the internal entry at `k`: the zero child at `k + 1`, the one child past the whole zero subtree, and both
subtrees below NODE_COUNT. -/
def State.ChildrenPlaced (s : State) (k : Nat) (z o : NodeIdx) : Prop :=
  z.toNat = k + 1 ∧
  ∃ zero one : CodeTree, SubtreeAt s.node (k + 1) zero ∧ o.toNat = k + 1 + zero.size ∧ SubtreeAt s.node o.toNat one ∧
    o.toNat + one.size ≤ s.nodeCount.toNat

/-- The invariants of R60, with the parameters legal (R7), every memory canonical and within its capacity, every stored symbol SYM_W bits
wide, and no reserved cause code (R201). -/
structure State.Inv (s : State) : Prop where
  legal : s.params.Legal
  shapeFits : s.shape.Fits s.params.shapeCap
  leavesFits : s.leaves.Fits s.params.leafCap
  msgFits : s.msg.Fits s.params.msgCap
  textFits : s.text.Fits s.params.textCap
  nodeFits : s.node.Fits s.params.nodeCap
  leavesSyms : SymsFit s.params.symW s.leaves
  textSyms : SymsFit s.params.symW s.text
  cause : s.errCause.toNat ≤ 9
  noTree : s.treeValid = false → s.nodeCount = 0 ∧ s.node = []
  tree : s.treeValid = true → ∃ t, s.HoldsTree t ∧ ∀ x ∈ t.leaves, x.toNat < 2 ^ s.params.symW
  busyClear : s.busy = true → s.done = false ∧ s.errCause = 0 ∧ s.errDetail = 0 ∧ s.errIndex = 0

/-- A shape stream that ends before its tree is complete: a beginning of some tree's shape that is not all of it (R202, SHAPE_EXHAUSTED). -/
def IncompleteShape (shape : List Bool) : Prop :=
  ∃ (t : CodeTree) (rest : List Bool), rest ≠ [] ∧ t.shape = shape ++ rest

/-- The number of leaf bits of a shape stream (R21). -/
def zeroBits (shape : List Bool) : Nat := shape.count false

/-- Every transaction of an agenda is one the port supports (R76). -/
def agendaOk (agenda : List Event) : Bool :=
  agenda.all fun
    | .engine => true
    | .reset => true
    | .read a => a.ok
    | .write a _ => a.ok

/-- The first `n` cells of a buffer have been written: none of them is `⊥`. -/
def Memory.Written {α : Type} (m : Memory α) (n : Nat) : Prop := ∀ k, k < n → m.cell k ≠ none

/-- The codes of a text under a tree, symbol by symbol (R161). -/
def CodesOf (t : CodeTree) (text : List Symbol) (codes : List (List Bool)) : Prop :=
  text.map (codeOf t.paths) = codes.map some

/-- A sequence of leaves of a tree, each with its path: what a decoded message is parsed into (R163). -/
def LeavesOf (t : CodeTree) (ps : List (Symbol × List Bool)) : Prop := ∀ e ∈ ps, e ∈ t.paths

/-- The bits of a sequence of leaves, path after path. -/
def bitsOf (ps : List (Symbol × List Bool)) : List Bool := (ps.map Prod.snd).flatten

/-- The beginning of a code that is neither empty nor whole (R163, the trailing partial code). -/
def UnfinishedCode (t : CodeTree) (q : List Bool) : Prop :=
  q ≠ [] ∧ ∃ (x : Symbol) (r : List Bool), r ≠ [] ∧ (x, q ++ r) ∈ t.paths

/-- Up to `k` steps of the machine, stopping at the first fault or refusal. -/
def runFor : Nat → State → Result
  | 0, s => .next s
  | k + 1, s =>
    match step s with
    | .next u => runFor k u
    | .fault f => .fault f
    | .refused r => .refused r

/-- The move of an agenda that resets the block: the reset input, or a supported write to CTRL with SOFT_RESET set (R230). -/
def resetMove (agenda : List Event) : Prop :=
  (∃ rest, agenda = .reset :: rest) ∨
  (∃ a v rest, agenda = .write a v :: rest ∧ a.ok = true ∧ blockAddr a.addr = 0x00020 ∧ v.getLsbD 1 = true)

/-- The engine has the move. -/
def engineMove (agenda : List Event) : Prop := agenda = [] ∨ ∃ rest, agenda = .engine :: rest

end Sys2Proof.Machine
end

