-- ==== Sys2Proof/Certificates/Slice0/Obligations.lean ====
section
/-! DEFINITION. The statements about HTC for the provers. Each docstring names the rules of spec/ it formalises. A free value (log entry 3)
stands in no statement but as what a `⊥` read gives, so each holds for every value of it. -/

open Sys2Proof Sys2Proof.Machine

/-- The end of a command as every completion leaves the command registers (R124, R125): nothing pending, DONE set, the report given. -/
def Sys2Proof.Machine.ended (cause detail : Byte) (index : Nat) (s : State) : State :=
  { s with pend := none, done := true, errCause := cause, errDetail := detail, errIndex := BitVec.ofNat 32 index }

/-- A host read of `s` at `a` completes with the word `w`, and changes nothing but the model's own port answer and draw count (R82). -/
def Sys2Proof.Machine.Answers (s : State) (a : Access) (w : Word) : Prop :=
  hostRead a s = .next { s with rdata := some w, draws := s.draws + 1 }

/-- The values of R59, with the parameters and the model's own fields given. -/
def Sys2Proof.Machine.resetImage (p : Params) (agenda : List Event) (rdata : Option Word) (draws : Nat) : State :=
  { params := p, irqEn := false, done := false, treeValid := false, wrWhileBusy := false
    errCause := 0, errDetail := 0, errIndex := 0, shapeLen := 0, leafLen := 0, msgLen := 0, textLen := 0, nodeCount := 0
    shape := [], leaves := [], msg := [], text := [], node := [], pend := none
    agenda := agenda, rdata := rdata, draws := draws }

/-! ### Encoding -/

/-- R102, R107: decoding the word of a well-formed instruction gives the instruction, the ILLEGAL row with every word it admits (which its
constructor keeps by the model's choice, log entry 13). -/
def Obligations.DecodeOfEncodeIsIdentity : Prop := ∀ i : Instr, i.wf = true → decode (encode i) = i

/-- R102, R107: what a word decodes to is well formed, and encoding it gives the word back. For the five listed words this is R102's table. For
an illegal word it is the model's choice: R107's verdict keeps only the detail, and the model's `illegal` keeps the word (log entry 13). -/
def Obligations.EncodeOfDecodeIsIdentity : Prop := ∀ w : Word, encode (decode w) = w ∧ (decode w).wf = true

/-- R102: the five match words decode to their commands. R103: the words of vectors I1, I2, I4 and I6 are illegal; that the decoded illegal
command holds its word is the model's choice (log entry 13). -/
def Obligations.OpcodeWordsDecode : Prop :=
  decode 0x00000001 = .unflatten ∧ decode 0x00000002 = .flatten ∧ decode 0x00000003 = .encode ∧
  decode 0x00000004 = .decode ∧ decode 0x00000005 = .release ∧ decode 0x00000000 = .illegal 0x00000000 ∧
  decode 0x00000006 = .illegal 0x00000006 ∧ decode 0x00000013 = .illegal 0x00000013 ∧
  decode 0x00000010 = .illegal 0x00000010

/-- R103: a word with a reserved bit set or a reserved opcode is illegal; it is accepted like any command word, and the engine completes it
with ILLEGAL_COMMAND, detail 2 when bits [31:4] are not 0 and otherwise 1, index 0, and no other effect. That the decoded illegal command holds
its word is the model's choice (log entry 13). -/
def Obligations.IllegalWordCompletesWithError : Prop :=
  ∀ (s : State) (w : Word), w.toNat / 16 ≠ 0 ∨ w.toNat % 16 = 0 ∨ 6 ≤ w.toNat % 16 →
    decode w = .illegal w ∧
    (s.busy = false → ∃ u, hostWrite ⟨0x00028, 4, 0xF⟩ w s = .next u ∧ u.busy = true ∧
      u = { s with pend := some w, done := false, errCause := 0, errDetail := 0, errIndex := 0 }) ∧
    exec (.illegal w) s = .next (ended 0x01 (if w.toNat / 16 ≠ 0 then 2 else 1) 0 s)

/-! ### Steps and agents -/

/-- R122: when a command is pending and the engine has the move, the step is exec of the decoded command at that state; the move itself is
taken off the agenda. -/
def Obligations.StepRunsPendingCommand : Prop :=
  ∀ (s : State) (w : Word), s.pend = some w →
    (s.agenda = [] → step s = exec (decode w) s) ∧
    (∀ rest, s.agenda = .engine :: rest → step s = exec (decode w) { s with agenda := rest })

/-- The model's own (log entry 5): a placed command word is accepted (R120), and the next step performs it. -/
def Obligations.PlacedWordRunsNext : Prop :=
  ∀ (s : State) (nbits w : Nat),
    step (s.withFetchWord nbits w) =
      exec (decode (BitVec.ofNat 32 (w % 2 ^ nbits)))
        { s with pend := some (BitVec.ofNat 32 (w % 2 ^ nbits)), done := false, errCause := 0, errDetail := 0, errIndex := 0 }

/-- R218, R10: the idle block holds its state, and a host move of the agenda is the transaction on the state it finds. -/
def Obligations.IdleAndHostMoves : Prop :=
  ∀ (s : State) (rest : List Event),
    (s.pend = none → s.agenda = [] → step s = .next s) ∧
    (s.pend = none → s.agenda = .engine :: rest → step s = .next { s with agenda := rest }) ∧
    (∀ a, s.agenda = .read a :: rest → step s = hostRead a { s with agenda := rest }) ∧
    (∀ a v, s.agenda = .write a v :: rest → step s = hostWrite a v { s with agenda := rest })

/-- R230, R231, R232, R59: the reset input and a soft reset, busy or not, put every piece of state at its reset value in one step. That the
agenda holds the move, and that agenda, rdata and draws stay, are the model's choices (log entries 1, 2 and 3). -/
def Obligations.ResetRestoresEveryValue : Prop :=
  ∀ (s : State) (rest : List Event),
    (s.agenda = .reset :: rest → step s = .next (resetImage s.params rest s.rdata s.draws)) ∧
    (∀ a v, s.agenda = .write a v :: rest → a.ok = true → blockAddr a.addr = 0x00020 → v.getLsbD 1 = true →
      step s = .next (resetImage s.params rest s.rdata s.draws))

/-- R59: the state right after reset, with the default parameters of R7. The last three arguments are the model's choices (log entries 1,
2 and 3). -/
def Obligations.ResetValues : Prop :=
  State.reset = resetImage { symW := 8, nodeCap := 511, shapeCap := 1024, leafCap := 512, msgCap := 65536, textCap := 8192 } [] none 0 ∧
  State.reset.busy = false ∧ State.reset.irq = false

/-- R122, R232, R245: under any agenda of supported transactions a pending command is pending no longer after at most one step more than the
agenda holds moves; and where no move of the agenda is a reset, it completes: it stays pending until the engine's move, which performs it and
sets DONE. That the engine moves on an empty agenda is the model's form of weak fairness (log entry 1). -/
def Obligations.PendingCommandCompletes : Prop :=
  ∀ (s : State) (w : Word), s.Inv → s.pend = some w → agendaOk s.agenda = true →
    (∃ k u, k ≤ s.agenda.length + 1 ∧ runFor k s = .next u ∧ u.pend = none) ∧
    ((∀ rest, rest <:+ s.agenda → ¬ resetMove rest) →
      ∃ k v u, k ≤ s.agenda.length ∧ runFor k s = .next v ∧ v.pend = some w ∧ engineMove v.agenda ∧
        step v = .next u ∧ exec (decode w) { v with agenda := v.agenda.tail } = .next u ∧ u.pend = none ∧ u.done = true)

/-- R240, R243: a pending command stays pending until the engine performs it or a reset aborts it, whatever the host does. -/
def Obligations.PendingCommandIsKept : Prop :=
  ∀ (s u : State) (w : Word), s.pend = some w → step s = .next u →
    ¬ engineMove s.agenda → ¬ resetMove s.agenda → u.pend = some w

/-! ### UNFLATTEN -/

/-- R140, R141: on streams that are the flattened form of a tree that fits, UNFLATTEN loads that tree and reports no error. -/
def Obligations.UnflattenLoadsTree : Prop :=
  ∀ (s : State) (t : CodeTree), s.params.Legal → s.treeValid = false → s.node = [] →
    s.shapeLen.toNat ≤ s.params.shapeCap → s.leafLen.toNat ≤ s.params.leafCap →
    s.shapeIn = t.shape → s.leavesIn = t.leaves → t.size ≤ s.params.nodeCap →
    ∃ u, exec .unflatten s = .next u ∧ u.HoldsTree t ∧
      u = ended 0 0 0 { s with node := u.node, nodeCount := BitVec.ofNat 32 t.size, treeValid := true, draws := u.draws }

/-- R20, R140: UNFLATTEN succeeds exactly on the well-formed pairs whose tree fits in node memory; in every other case it reports
MALFORMED_TREE or CAPACITY and leaves no tree and every node entry `⊥` (R126). -/
def Obligations.UnflattenSucceedsExactlyOnWellFormed : Prop :=
  ∀ s : State, s.Inv → s.treeValid = false →
    s.shapeLen.toNat ≤ s.params.shapeCap → s.leafLen.toNat ≤ s.params.leafCap →
    ∃ u, exec .unflatten s = .next u ∧
      (u.errCause = 0 ↔ WellFormedPair s.shapeIn s.leavesIn ∧ s.shapeIn.length ≤ s.params.nodeCap) ∧
      (u.errCause ≠ 0 → (u.errCause = 0x06 ∨ u.errCause = 0x09) ∧
        u = ended u.errCause u.errDetail u.errIndex.toNat { s with node := [], draws := u.draws })

/-- R140, R202, R203: where the streams stop inside a tree: the shape stream ends (index SHAPE_LEN), node memory is full (index NODE_CAP), or
a leaf bit finds no symbol (index of the bit). -/
def Obligations.UnflattenStopsInsideTree : Prop :=
  ∀ (s : State) (pre post : List Bool), s.treeValid = false → s.node.wf →
    s.shapeLen.toNat ≤ s.params.shapeCap → s.leafLen.toNat ≤ s.params.leafCap →
    s.shapeIn = pre ++ post → IncompleteShape pre → zeroBits pre ≤ s.leavesIn.length →
    pre.length ≤ s.params.nodeCap →
    (post = [] → ∃ u, exec .unflatten s = .next u ∧
      u = ended 0x06 1 s.shapeLen.toNat { s with node := [], draws := u.draws }) ∧
    (post ≠ [] → pre.length = s.params.nodeCap → ∃ u, exec .unflatten s = .next u ∧
      u = ended 0x09 1 s.params.nodeCap { s with node := [], draws := u.draws }) ∧
    (∀ post', post = false :: post' → pre.length < s.params.nodeCap → zeroBits pre = s.leavesIn.length →
      ∃ u, exec .unflatten s = .next u ∧
        u = ended 0x06 2 pre.length { s with node := [], draws := u.draws })

/-- R140, R202, R203, R205: what is left over after a whole tree is reported, shape bits before leaves. -/
def Obligations.UnflattenReportsLeftovers : Prop :=
  ∀ (s : State) (t : CodeTree) (r : List Bool) (ls : List Symbol), s.treeValid = false → s.node.wf →
    s.shapeLen.toNat ≤ s.params.shapeCap → s.leafLen.toNat ≤ s.params.leafCap →
    s.shapeIn = t.shape ++ r → s.leavesIn = t.leaves ++ ls → t.size ≤ s.params.nodeCap →
    (r ≠ [] → ∃ u, exec .unflatten s = .next u ∧
      u = ended 0x06 3 t.size { s with node := [], draws := u.draws }) ∧
    (r = [] → ls ≠ [] → ∃ u, exec .unflatten s = .next u ∧
      u = ended 0x06 4 t.leafCount { s with node := [], draws := u.draws })

/-- R140, R205: UNFLATTEN's check phase, in order: TREE_PRESENT, SHAPE_LEN, LEAF_LEN. A check-phase error changes nothing else (R126). -/
def Obligations.UnflattenChecksInOrder : Prop :=
  ∀ s : State,
    (s.treeValid = true → exec .unflatten s = .next (ended 0x03 0 0 s)) ∧
    (s.treeValid = false → s.params.shapeCap < s.shapeLen.toNat → exec .unflatten s = .next (ended 0x04 1 0 s)) ∧
    (s.treeValid = false → s.shapeLen.toNat ≤ s.params.shapeCap → s.params.leafCap < s.leafLen.toNat →
      exec .unflatten s = .next (ended 0x04 2 0 s))

/-- R141: the layout a successful UNFLATTEN leaves, read against the streams it read: they are the flattened form of the tree it holds, and
items 1 to 5 of the rule. -/
def Obligations.UnflattenLayoutFollowsStreams : Prop :=
  ∀ s u : State, s.Inv → exec .unflatten s = .next u → u.errCause = 0 →
    (∃ t, s.shapeIn = t.shape ∧ s.leavesIn = t.leaves ∧ u.HoldsTree t) ∧
    u.nodeCount = s.shapeLen ∧ zeroBits s.shapeIn = s.leafLen.toNat ∧
    (∀ k, k < u.nodeCount.toNat →
      (s.shapeIn[k]? = some true ↔ ∃ z o, u.node.cell k = some (.internal z o))) ∧
    (∀ k z o, u.node.cell k = some (.internal z o) → u.ChildrenPlaced k z o) ∧
    s.leavesIn = (List.range u.nodeCount.toNat).filterMap fun k =>
      match u.node.cell k with
      | some (.leaf x) => some x
      | _ => none

/-! ### FLATTEN -/

/-- R142, R132: FLATTEN of a loaded tree writes its shape and leaves from position 0, their lengths, and nothing else; they fit. -/
def Obligations.FlattenWritesTree : Prop :=
  ∀ (s : State) (t : CodeTree), s.params.Legal → s.HoldsTree t → s.shape.wf → s.leaves.wf →
    ∃ u, exec .flatten s = .next u ∧
      (∀ k, u.shape.cell k = if k < t.size then t.shape[k]? else s.shape.cell k) ∧
      (∀ k, u.leaves.cell k = if k < t.leafCount then t.leaves[k]? else s.leaves.cell k) ∧
      t.size ≤ s.params.shapeCap ∧ t.leafCount ≤ s.params.leafCap ∧
      u = ended 0 0 0 { s with shape := u.shape, shapeLen := BitVec.ofNat 32 t.size
                               leaves := u.leaves, leafLen := BitVec.ofNat 32 t.leafCount }

/-- R143: in a state that satisfies the invariants, FLATTEN's output can be read directly off node memory. -/
def Obligations.FlattenReadsNodeMemoryDirectly : Prop :=
  ∀ s : State, s.Inv → s.treeValid = true →
    ∃ u, exec .flatten s = .next u ∧ u.shapeLen = s.nodeCount ∧
      (∀ k, k < s.nodeCount.toNat →
        (u.shape.cell k = some false ↔ ∃ x, s.node.cell k = some (.leaf x)) ∧
        (u.shape.cell k = some true ↔ ∃ z o, s.node.cell k = some (.internal z o))) ∧
      (List.range u.leafLen.toNat).map u.leaves.cell =
        (List.range s.nodeCount.toNat).filterMap fun k =>
          match s.node.cell k with
          | some (.leaf x) => some (some x)
          | _ => none

/-- R144 law 1: FLATTEN, RELEASE, UNFLATTEN from a state with a tree leaves node memory and NODE_COUNT as they were. -/
def Obligations.FlattenReleaseUnflattenRestoresTree : Prop :=
  ∀ s : State, s.Inv → s.treeValid = true →
    ∃ u₁ u₂ u₃, exec .flatten s = .next u₁ ∧ exec .release u₁ = .next u₂ ∧ exec .unflatten u₂ = .next u₃ ∧
      u₁.errCause = 0 ∧ u₂.errCause = 0 ∧ u₃.errCause = 0 ∧ u₃.treeValid = true ∧
      u₃.node = s.node ∧ u₃.nodeCount = s.nodeCount

/-- R144 law 2: FLATTEN after a successful UNFLATTEN of written cells leaves SHAPE, LEAVES and their lengths as they were. -/
def Obligations.UnflattenFlattenRestoresStreams : Prop :=
  ∀ s u₁ : State, s.Inv → s.shape.Written s.shapeLen.toNat → s.leaves.Written s.leafLen.toNat →
    exec .unflatten s = .next u₁ → u₁.errCause = 0 →
    ∃ u₂, exec .flatten u₁ = .next u₂ ∧ u₂.errCause = 0 ∧ u₂.shape = s.shape ∧ u₂.leaves = s.leaves ∧
      u₂.shapeLen = s.shapeLen ∧ u₂.leafLen = s.leafLen

/-! ### ENCODE and DECODE -/

/-- R162, R132: ENCODE of a text whose symbols all have codes that fit writes the codes in text order and MSG_LEN, and nothing else. -/
def Obligations.EncodeWritesCodes : Prop :=
  ∀ (s : State) (t : CodeTree) (codes : List (List Bool)), s.params.Legal → s.HoldsTree t → t.degenerate = false →
    s.msg.wf → s.textLen.toNat ≤ s.params.textCap → CodesOf t s.textIn codes →
    codes.flatten.length ≤ s.params.msgCap →
    ∃ u, exec .encode s = .next u ∧
      (∀ k, u.msg.cell k = if k < codes.flatten.length then codes.flatten[k]? else s.msg.cell k) ∧
      u.msgLen.toNat = codes.flatten.length ∧
      u = ended 0 0 0 { s with msg := u.msg, msgLen := u.msgLen, draws := u.draws }

/-- R162, R126, R205: the first text position whose symbol has no code, or whose code does not fit, is reported; MSG_LEN goes to 0 and every
MSG cell to `⊥`. Membership is checked before capacity. -/
def Obligations.EncodeReportsFirstBadSymbol : Prop :=
  ∀ (s : State) (t : CodeTree) (codes : List (List Bool)) (xs rest : List Symbol) (x : Symbol), s.params.Legal → s.HoldsTree t →
    t.degenerate = false → s.textLen.toNat ≤ s.params.textCap → s.textIn = xs ++ x :: rest → CodesOf t xs codes →
    codes.flatten.length ≤ s.params.msgCap →
    (codeOf t.paths x = none → ∃ u, exec .encode s = .next u ∧
      u = ended 0x07 0 xs.length { s with msg := [], msgLen := 0, draws := u.draws }) ∧
    (∀ p, codeOf t.paths x = some p → s.params.msgCap < codes.flatten.length + p.length →
      ∃ u, exec .encode s = .next u ∧
        u = ended 0x09 3 xs.length { s with msg := [], msgLen := 0, draws := u.draws })

/-- R161: the code table of a loaded tree lists its leaves in pre-order with their paths, and the code of a symbol is the path of the first
leaf that holds it. -/
def Obligations.CodeIsPathOfFirstLeaf : Prop :=
  ∀ (s : State) (t : CodeTree), s.params.Legal → s.HoldsTree t →
    s.codeTable = some t.paths ∧ t.paths.map Prod.fst = t.leaves ∧
    ∀ x p, codeOf t.paths x = some p ↔
      ∃ before after, t.paths = before ++ (x, p) :: after ∧ ∀ e ∈ before, e.1 ≠ x

/-- R163, R132: DECODE of a message that is a sequence of whole codes writes their leaves' symbols and TEXT_LEN, and nothing else. -/
def Obligations.DecodeWritesSymbols : Prop :=
  ∀ (s : State) (t : CodeTree) (ps : List (Symbol × List Bool)), s.params.Legal → s.HoldsTree t → t.degenerate = false →
    s.text.wf → s.msgLen.toNat ≤ s.params.msgCap → LeavesOf t ps → s.msgIn = bitsOf ps →
    ps.length ≤ s.params.textCap →
    ∃ u, exec .decode s = .next u ∧
      (∀ k, u.text.cell k = if k < ps.length then (ps.map Prod.fst)[k]? else s.text.cell k) ∧
      u.textLen.toNat = ps.length ∧
      u = ended 0 0 0 { s with text := u.text, textLen := u.textLen, draws := u.draws }

/-- R163, R126, R203: a message that ends inside a code, and one that completes a symbol the text buffer has no room for; TEXT_LEN goes to 0
and every TEXT cell to `⊥`. -/
def Obligations.DecodeReportsFirstError : Prop :=
  ∀ (s : State) (t : CodeTree) (ps : List (Symbol × List Bool)) (q : List Bool), s.params.Legal → s.HoldsTree t →
    t.degenerate = false → s.msgLen.toNat ≤ s.params.msgCap → LeavesOf t ps → s.msgIn = bitsOf ps ++ q →
    (ps.length ≤ s.params.textCap → UnfinishedCode t q → ∃ u, exec .decode s = .next u ∧
      u = ended 0x08 0 (bitsOf ps).length { s with text := [], textLen := 0, draws := u.draws }) ∧
    (∀ x p rest, ps.length = s.params.textCap → (x, p) ∈ t.paths → q = p ++ rest → ∃ u, exec .decode s = .next u ∧
      u = ended 0x09 4 ((bitsOf ps).length + p.length - 1) { s with text := [], textLen := 0, draws := u.draws })

/-- R205: the check phase of ENCODE and DECODE with a tree loaded: the length first, then a degenerate tree; nothing else changes (R126). -/
def Obligations.CodecChecksInOrder : Prop :=
  ∀ s : State, s.treeValid = true →
    (s.params.textCap < s.textLen.toNat → exec .encode s = .next (ended 0x04 4 0 s)) ∧
    (s.params.msgCap < s.msgLen.toNat → exec .decode s = .next (ended 0x04 3 0 s)) ∧
    (∀ x, s.HoldsTree (.leaf x) → s.textLen.toNat ≤ s.params.textCap → exec .encode s = .next (ended 0x05 0 0 s)) ∧
    (∀ x, s.HoldsTree (.leaf x) → s.msgLen.toNat ≤ s.params.msgCap → exec .decode s = .next (ended 0x05 0 0 s))

/-- R164: ENCODE followed by DECODE succeeds and leaves the text and its length as they were. -/
def Obligations.EncodeDecodeRestoresText : Prop :=
  ∀ (s : State) (t : CodeTree) (codes : List (List Bool)), s.Inv → s.HoldsTree t → t.degenerate = false →
    s.text.Written s.textLen.toNat → CodesOf t s.textIn codes →
    codes.flatten.length ≤ s.params.msgCap →
    ∃ u₁ u₂, exec .encode s = .next u₁ ∧ u₁.errCause = 0 ∧ exec .decode u₁ = .next u₂ ∧ u₂.errCause = 0 ∧
      u₂.text = s.text ∧ u₂.textLen = s.textLen

/-- R165 items 1 and 2: in the code table of a loaded tree that is not degenerate, no path begins another, and every path has at least one
bit and at most `(NODE_COUNT - 1) / 2`. -/
def Obligations.CodesArePrefixFreeAndBounded : Prop :=
  ∀ (s : State) (t : CodeTree), s.params.Legal → s.HoldsTree t → t.degenerate = false →
    ∃ table, s.codeTable = some table ∧
      table.Pairwise (fun e f => ¬ e.2 <+: f.2 ∧ ¬ f.2 <+: e.2) ∧
      ∀ e ∈ table, 1 ≤ e.2.length ∧ e.2.length ≤ (s.nodeCount.toNat - 1) / 2 ∧ e.2.length ≤ s.params.maxDepth

/-! ### RELEASE and the tree slot -/

/-- R180: RELEASE of a loaded tree clears TREE_VALID, NODE_COUNT and every node entry, and nothing else; without a tree it reports NO_TREE and
changes nothing else. -/
def Obligations.ReleaseFreesTree : Prop :=
  ∀ s : State,
    (s.treeValid = true → exec .release s = .next (ended 0 0 0 { s with treeValid := false, nodeCount := 0, node := [] })) ∧
    (s.treeValid = false → exec .release s = .next (ended 0x02 0 0 s))

/-- R204, R205: FLATTEN, ENCODE, DECODE and RELEASE without a tree report NO_TREE and change nothing else. -/
def Obligations.CommandsWithoutTreeReportNoTree : Prop :=
  ∀ (s : State) (i : Instr), s.treeValid = false → i = .flatten ∨ i = .encode ∨ i = .decode ∨ i = .release →
    exec i s = .next (ended 0x02 0 0 s)

/-- R52, R58, R79: node memory, NODE_COUNT and TREE_VALID change only in a reset, or when the engine performs UNFLATTEN or RELEASE. -/
def Obligations.OnlyTreeCommandsChangeTree : Prop :=
  ∀ s u : State, step s = .next u →
    (u.node = s.node ∧ u.nodeCount = s.nodeCount ∧ u.treeValid = s.treeValid) ∨
    resetMove s.agenda ∨
    (engineMove s.agenda ∧ (s.pend = some 0x00000001 ∨ s.pend = some 0x00000005))

/-- R52, R60 items 1, 2, 3 and 6: what the invariant says of node memory. With a tree loaded it is the pre-order layout of R52, each child at
the place the rule gives it, both children above their parent and below NODE_COUNT. -/
def Obligations.InvariantGivesTreeLayout : Prop :=
  ∀ s : State, s.Inv →
    (s.treeValid = false → s.nodeCount = 0 ∧ ∀ k, s.node.cell k = none) ∧
    (s.treeValid = true → (∃ t, s.HoldsTree t) ∧ 1 ≤ s.nodeCount.toNat ∧ s.nodeCount.toNat ≤ s.params.nodeCap ∧ s.nodeCount.toNat % 2 = 1 ∧
      (∀ k, k < s.nodeCount.toNat ↔ s.node.cell k ≠ none) ∧
      (∀ k z o, s.node.cell k = some (.internal z o) →
        s.ChildrenPlaced k z o ∧ k < z.toNat ∧ z.toNat < o.toNat ∧ o.toNat < s.nodeCount.toNat))

/-- R8: the leaves of a loaded tree and its longest path are within MAX_LEAVES and MAX_DEPTH. -/
def Obligations.LoadedTreeIsBounded : Prop :=
  ∀ (s : State) (t : CodeTree), s.HoldsTree t →
    t.leafCount ≤ s.params.maxLeaves ∧ t.depth ≤ s.params.maxDepth ∧ s.nodeCount.toNat + 1 = 2 * t.leafCount

/-! ### Completion, frames and invariants -/

/-- R122, R124, R125, R210: every command that ends leaves nothing pending, DONE set, and irq as CTRL.IRQ_EN says. -/
def Obligations.CompletionSetsDoneAndIrq : Prop :=
  ∀ (s u : State) (i : Instr), exec i s = .next u →
    u.pend = none ∧ u.busy = false ∧ u.done = true ∧ u.irq = s.irqEn ∧ u.err = (u.errCause != 0)

/-- R202, R204: which cause and detail a command can report. -/
def Obligations.CausesOfEachCommand : Prop :=
  ∀ (s u : State) (i : Instr), exec i s = .next u →
    (u.errCause, u.errDetail) ∈
      (match i with
        | .unflatten => [(0, 0), (3, 0), (4, 1), (4, 2), (6, 1), (6, 2), (6, 3), (6, 4), (9, 1)]
        | .flatten => [(0, 0), (2, 0)]
        | .encode => [(0, 0), (2, 0), (4, 4), (5, 0), (7, 0), (9, 3)]
        | .decode => [(0, 0), (2, 0), (4, 3), (5, 0), (8, 0), (9, 4)]
        | .release => [(0, 0), (2, 0)]
        | .illegal _ => [(1, 1), (1, 2)] : List (Byte × Byte))

/-- R203: ERR_INDEX is 0 on success and for every cause that has no position. -/
def Obligations.IndexIsZeroWithoutPosition : Prop :=
  ∀ (s u : State) (i : Instr), exec i s = .next u →
    u.errCause ∈ ([0x00, 0x01, 0x02, 0x03, 0x04, 0x05] : List Byte) → u.errIndex = 0

/-- R106, R126, R133: the frame of every command: what it leaves unchanged when it ends, whether in success or in error. No command writes the
parameters, CTRL, WR_WHILE_BUSY or an input. -/
def Obligations.CommandFrame : Prop :=
  ∀ (s u : State) (i : Instr), exec i s = .next u →
    u.params = s.params ∧ u.irqEn = s.irqEn ∧ u.wrWhileBusy = s.wrWhileBusy ∧ u.agenda = s.agenda ∧ u.rdata = s.rdata ∧
    (i ≠ .unflatten → i ≠ .release → u.node = s.node ∧ u.nodeCount = s.nodeCount ∧ u.treeValid = s.treeValid) ∧
    (i ≠ .flatten → u.shape = s.shape ∧ u.shapeLen = s.shapeLen ∧ u.leaves = s.leaves ∧ u.leafLen = s.leafLen) ∧
    (i ≠ .encode → u.msg = s.msg ∧ u.msgLen = s.msgLen) ∧
    (i ≠ .decode → u.text = s.text ∧ u.textLen = s.textLen)

/-- R132: the cells an output leaves alone: those at or past the output length of a FLATTEN, ENCODE or DECODE that succeeds. -/
def Obligations.OutputsLeaveHigherCells : Prop :=
  ∀ (s u : State) (i : Instr), s.Inv → exec i s = .next u → u.errCause = 0 →
    (i = .flatten → (∀ k, u.shapeLen.toNat ≤ k → u.shape.cell k = s.shape.cell k) ∧
      ∀ k, u.leafLen.toNat ≤ k → u.leaves.cell k = s.leaves.cell k) ∧
    (i = .encode → ∀ k, u.msgLen.toNat ≤ k → u.msg.cell k = s.msg.cell k) ∧
    (i = .decode → ∀ k, u.textLen.toNat ≤ k → u.text.cell k = s.text.cell k)

/-- R133: the cells of an input at or past its length register do not affect the command that reads it. -/
def Obligations.CellsPastLengthDoNotMatter : Prop :=
  ∀ (s u : State),
    (∀ m : Memory Bool, (∀ k, k < s.shapeLen.toNat → m.cell k = s.shape.cell k) →
      exec .unflatten s = .next u → exec .unflatten { s with shape := m } = .next { u with shape := m }) ∧
    (∀ m : Memory Symbol, (∀ k, k < s.leafLen.toNat → m.cell k = s.leaves.cell k) →
      exec .unflatten s = .next u → exec .unflatten { s with leaves := m } = .next { u with leaves := m }) ∧
    (∀ m : Memory Symbol, (∀ k, k < s.textLen.toNat → m.cell k = s.text.cell k) →
      exec .encode s = .next u → exec .encode { s with text := m } = .next { u with text := m }) ∧
    (∀ m : Memory Bool, (∀ k, k < s.msgLen.toNat → m.cell k = s.msg.cell k) →
      exec .decode s = .next u → exec .decode { s with msg := m } = .next { u with msg := m })

/-- R133, R80: a written cell below the length register is read as it stands. -/
def Obligations.InputsReadWrittenCells : Prop :=
  ∀ (s : State) (k : Nat),
    (∀ b, k < s.shapeLen.toNat → s.shape.cell k = some b → s.shapeIn[k]? = some b) ∧
    (∀ x, k < s.leafLen.toNat → s.leaves.cell k = some x → s.leavesIn[k]? = some x) ∧
    (∀ x, k < s.textLen.toNat → s.text.cell k = some x → s.textIn[k]? = some x) ∧
    (∀ b, k < s.msgLen.toNat → s.msg.cell k = some b → s.msgIn[k]? = some b) ∧
    s.shapeIn.length = s.shapeLen.toNat ∧ s.leavesIn.length = s.leafLen.toNat ∧
    s.textIn.length = s.textLen.toNat ∧ s.msgIn.length = s.msgLen.toNat

/-- R60, R7, R55, R201: every step keeps the invariant. -/
def Obligations.StepKeepsInvariant : Prop := ∀ s u : State, s.Inv → step s = .next u → u.Inv

/-- R59, R60: the state after reset satisfies the invariant. -/
def Obligations.ResetSatisfiesInvariant : Prop := State.reset.Inv

/-- R129: under the invariant no command stops in a fault or a refusal: the tree helpers are called only within their domain. -/
def Obligations.CommandsAlwaysEndUnderInvariant : Prop :=
  ∀ (s : State) (i : Instr), s.Inv → ∃ u, exec i s = .next u

/-- R41, R42, R43: no step changes a parameter. -/
def Obligations.ParametersNeverChange : Prop := ∀ s u : State, step s = .next u → u.params = s.params

/-- R45: WR_WHILE_BUSY is sticky: it goes from 1 to 0 only in a reset or by a supported write of 1 to its bit of STATUS. -/
def Obligations.WrWhileBusyIsSticky : Prop :=
  ∀ s u : State, step s = .next u → s.wrWhileBusy = true → u.wrWhileBusy = false →
    resetMove s.agenda ∨
    ∃ a v rest, s.agenda = .write a v :: rest ∧ a.ok = true ∧ blockAddr a.addr = 0x00024 ∧ v.getLsbD 4 = true

/-! ### The host port -/

/-- R120, R243: a CMD write is accepted when nothing is pending, whatever the word; otherwise it is dropped and only recorded. -/
def Obligations.CmdWriteIssuesCommand : Prop :=
  ∀ (s : State) (a : Access) (w : Word), a.ok = true → blockAddr a.addr = 0x00028 →
    (s.busy = false → hostWrite a w s =
      .next { s with pend := some w, done := false, errCause := 0, errDetail := 0, errIndex := 0 }) ∧
    (s.busy = true → hostWrite a w s = .next { s with wrWhileBusy := true })

/-- R241, R72: a write in the busy window to any address but CTRL and STATUS is dropped and recorded in WR_WHILE_BUSY; CTRL and STATUS take
their writes as they always do. -/
def Obligations.BusyWriteIsDropped : Prop :=
  ∀ (s : State) (a : Access) (v : Word), a.ok = true → s.busy = true →
    (blockAddr a.addr ≠ 0x00020 → blockAddr a.addr ≠ 0x00024 → hostWrite a v s = .next { s with wrWhileBusy := true }) ∧
    (blockAddr a.addr = 0x00020 → hostWrite a v s = .next (writeCtrl v s)) ∧
    (blockAddr a.addr = 0x00024 → hostWrite a v s = .next (writeStatus v s))

/-- R44: a CTRL write, busy or not: a reset with bit 1 set, otherwise bit 0 is stored; a read gives IRQ_EN in bit 0 and 0 elsewhere; with
IRQ_EN 1 the interrupt output follows DONE. -/
def Obligations.CtrlRegister : Prop :=
  ∀ (s : State) (a : Access) (v : Word), a.ok = true → blockAddr a.addr = 0x00020 →
    (v.getLsbD 1 = true → hostWrite a v s = .next (resetImage s.params s.agenda s.rdata s.draws)) ∧
    (v.getLsbD 1 = false → hostWrite a v s = .next { s with irqEn := v.getLsbD 0 }) ∧
    Answers s a (if s.irqEn then 1 else 0) ∧ (s.irqEn = true → s.irq = s.done)

/-- R45, R56, R207: a STATUS write, busy or not, clears DONE with bit 1 and WR_WHILE_BUSY with bit 4 and does nothing else; a read gives the
five flags, BUSY being 1 exactly when a command is pending and ERR exactly when ERR_CAUSE is not 0, and 0 above them. -/
def Obligations.StatusRegister : Prop :=
  ∀ (s : State) (a : Access) (v : Word), a.ok = true → blockAddr a.addr = 0x00024 →
    hostWrite a v s = .next { s with done := s.done && !v.getLsbD 1, wrWhileBusy := s.wrWhileBusy && !v.getLsbD 4 } ∧
    ∃ w, Answers s a w ∧
      (w.getLsbD 0 = true ↔ s.pend ≠ none) ∧ w.getLsbD 1 = s.done ∧ (w.getLsbD 2 = true ↔ s.errCause ≠ 0) ∧
      w.getLsbD 3 = s.treeValid ∧ w.getLsbD 4 = s.wrWhileBusy ∧ w.toNat < 32

/-- R50: a length register stores any value and reads it back, when nothing is pending. -/
def Obligations.LengthRegisters : Prop :=
  ∀ (s : State) (a : Access) (v : Word), a.ok = true → s.busy = false →
    (blockAddr a.addr = 0x00040 → hostWrite a v s = .next { s with shapeLen := v } ∧ Answers s a s.shapeLen) ∧
    (blockAddr a.addr = 0x00044 → hostWrite a v s = .next { s with leafLen := v } ∧ Answers s a s.leafLen) ∧
    (blockAddr a.addr = 0x00048 → hostWrite a v s = .next { s with msgLen := v } ∧ Answers s a s.msgLen) ∧
    (blockAddr a.addr = 0x0004C → hostWrite a v s = .next { s with textLen := v } ∧ Answers s a s.textLen)

/-- R41, R42, R43, R47, R48, R49, R51: what the read-only registers read, and that a write to one has no effect when nothing is pending. -/
def Obligations.ReadOnlyRegisters : Prop :=
  ∀ (s : State) (a : Access) (v : Word), s.params.Legal → a.ok = true →
    (blockAddr a.addr = 0x00000 → Answers s a 0x48544301) ∧
    (blockAddr a.addr = 0x00004 → Answers s a (BitVec.ofNat 32 s.params.symW)) ∧
    (blockAddr a.addr = 0x00008 → Answers s a (BitVec.ofNat 32 s.params.nodeCap)) ∧
    (blockAddr a.addr = 0x0000C → Answers s a (BitVec.ofNat 32 s.params.shapeCap)) ∧
    (blockAddr a.addr = 0x00010 → Answers s a (BitVec.ofNat 32 s.params.leafCap)) ∧
    (blockAddr a.addr = 0x00014 → Answers s a (BitVec.ofNat 32 s.params.msgCap)) ∧
    (blockAddr a.addr = 0x00018 → Answers s a (BitVec.ofNat 32 s.params.textCap)) ∧
    (blockAddr a.addr = 0x0002C → Answers s a (s.errCause.setWidth 32)) ∧
    (blockAddr a.addr = 0x00030 → Answers s a (s.errDetail.setWidth 32)) ∧
    (blockAddr a.addr = 0x00034 → Answers s a s.errIndex) ∧
    (blockAddr a.addr = 0x00050 → s.busy = false → Answers s a s.nodeCount) ∧
    (s.busy = false →
      blockAddr a.addr ∈ ([0x00000, 0x00004, 0x00008, 0x0000C, 0x00010, 0x00014, 0x00018, 0x0002C, 0x00030, 0x00034,
        0x00050] : List Addr) →
      hostWrite a v s = .next s)

/-- R73, R34, R46: unmapped addresses, and the offsets of the register region that are not in R34's table, read 0, busy or not, and ignore
writes; CMD reads 0. -/
def Obligations.UnmappedReadsZeroIgnoresWrites : Prop :=
  ∀ (s : State) (a : Access) (v : Word), a.ok = true →
    (0x60000 ≤ (blockAddr a.addr).toNat → Answers s a 0 ∧ (s.busy = false → hostWrite a v s = .next s)) ∧
    ((blockAddr a.addr).toNat < 0x10000 →
      (blockAddr a.addr).toNat ∉ ([0x000, 0x004, 0x008, 0x00C, 0x010, 0x014, 0x018, 0x020, 0x024, 0x028, 0x02C, 0x030, 0x034,
        0x040, 0x044, 0x048, 0x04C, 0x050] : List Nat) →
      Answers s a 0 ∧ (s.busy = false → hostWrite a v s = .next s)) ∧
    (blockAddr a.addr = 0x00028 → Answers s a 0)

/-- R77: word `w` of the SHAPE and MSG windows: a write sets the 32 cells below the capacity and no other, a read gives them, bit `j` being
cell `32 * w + j`, and 0 past the capacity. -/
def Obligations.BitWindows : Prop :=
  ∀ (s : State) (a : Access) (v : Word) (w : Nat), a.ok = true → s.busy = false → s.shape.wf → s.msg.wf → w < 2 ^ 14 →
    (blockAddr a.addr = BitVec.ofNat 20 (0x10000 + 4 * w) →
      (∃ u, hostWrite a v s = .next u ∧ u = { s with shape := u.shape } ∧
        ∀ k, u.shape.cell k =
          if 32 * w ≤ k ∧ k < 32 * w + 32 ∧ k < s.params.shapeCap then some (v.getLsbD (k - 32 * w)) else s.shape.cell k) ∧
      (∃ word, Answers s a word ∧ ∀ j, j < 32 →
        (s.params.shapeCap ≤ 32 * w + j → word.getLsbD j = false) ∧
        (∀ b, 32 * w + j < s.params.shapeCap → s.shape.cell (32 * w + j) = some b → word.getLsbD j = b))) ∧
    (blockAddr a.addr = BitVec.ofNat 20 (0x30000 + 4 * w) →
      (∃ u, hostWrite a v s = .next u ∧ u = { s with msg := u.msg } ∧
        ∀ k, u.msg.cell k =
          if 32 * w ≤ k ∧ k < 32 * w + 32 ∧ k < s.params.msgCap then some (v.getLsbD (k - 32 * w)) else s.msg.cell k) ∧
      (∃ word, Answers s a word ∧ ∀ j, j < 32 →
        (s.params.msgCap ≤ 32 * w + j → word.getLsbD j = false) ∧
        (∀ b, 32 * w + j < s.params.msgCap → s.msg.cell (32 * w + j) = some b → word.getLsbD j = b)))

/-- R78, R80: word `w` of the LEAVES and TEXT windows: a write stores bits [SYM_W-1:0] in cell `w` and changes no other, a read gives the cell
zero-extended, or some SYM_W-bit value where the cell is `⊥`, and a word at or past the capacity reads 0 and ignores writes. -/
def Obligations.SymbolWindows : Prop :=
  ∀ (s : State) (a : Access) (v : Word) (w : Nat), a.ok = true → s.busy = false → s.params.Legal → s.leaves.wf → s.text.wf →
    w < 2 ^ 14 →
    (blockAddr a.addr = BitVec.ofNat 20 (0x20000 + 4 * w) →
      (∃ u, hostWrite a v s = .next u ∧ u = { s with leaves := u.leaves } ∧
        (∀ k, k ≠ w ∨ s.params.leafCap ≤ w → u.leaves.cell k = s.leaves.cell k) ∧
        (w < s.params.leafCap → ∃ x, u.leaves.cell w = some x ∧ x.toNat = v.toNat % 2 ^ s.params.symW)) ∧
      (s.params.leafCap ≤ w → Answers s a 0) ∧
      (∀ x, w < s.params.leafCap → s.leaves.cell w = some x → Answers s a (x.setWidth 32)) ∧
      (w < s.params.leafCap → s.leaves.cell w = none → ∃ word, Answers s a word ∧ word.toNat < 2 ^ s.params.symW)) ∧
    (blockAddr a.addr = BitVec.ofNat 20 (0x40000 + 4 * w) →
      (∃ u, hostWrite a v s = .next u ∧ u = { s with text := u.text } ∧
        (∀ k, k ≠ w ∨ s.params.textCap ≤ w → u.text.cell k = s.text.cell k) ∧
        (w < s.params.textCap → ∃ x, u.text.cell w = some x ∧ x.toNat = v.toNat % 2 ^ s.params.symW)) ∧
      (s.params.textCap ≤ w → Answers s a 0) ∧
      (∀ x, w < s.params.textCap → s.text.cell w = some x → Answers s a (x.setWidth 32)) ∧
      (w < s.params.textCap → s.text.cell w = none → ∃ word, Answers s a word ∧ word.toNat < 2 ^ s.params.symW))

/-- R79, R104: word `w` of the node window reads the node word of entry `w`, some word where the entry is `⊥`, 0 past the capacity, and ignores
writes. -/
def Obligations.NodeWindow : Prop :=
  ∀ (s : State) (a : Access) (v : Word) (w : Nat), a.ok = true → s.busy = false → w < 2 ^ 14 →
    blockAddr a.addr = BitVec.ofNat 20 (0x50000 + 4 * w) →
    hostWrite a v s = .next s ∧
    (s.params.nodeCap ≤ w → Answers s a 0) ∧
    (∀ x, w < s.params.nodeCap → s.node.cell w = some (.leaf x) →
      ∃ word, Answers s a word ∧ word.getLsbD 31 = true ∧ word.extractLsb' 16 15 = 0 ∧ word.extractLsb' 0 16 = x) ∧
    (∀ z o, w < s.params.nodeCap → s.node.cell w = some (.internal z o) →
      ∃ word, Answers s a word ∧ word.getLsbD 31 = false ∧ word.extractLsb' 16 15 = z ∧ word.getLsbD 15 = false ∧
        word.extractLsb' 0 15 = o) ∧
    (w < s.params.nodeCap → s.node.cell w = none → ∃ word, Answers s a word)

/-- R242: in the busy window the length registers, NODE_COUNT and every window word read the free word of `⊥` (log entry 3), and the error
registers read 0. -/
def Obligations.BusyReads : Prop :=
  ∀ (s : State) (a : Access), s.Inv → a.ok = true → s.busy = true →
    (blockAddr a.addr ∈ ([0x00040, 0x00044, 0x00048, 0x0004C, 0x00050] : List Addr) →
      Answers s a (Config.freeWord s.draws)) ∧
    (0x10000 ≤ (blockAddr a.addr).toNat → (blockAddr a.addr).toNat < 0x60000 → Answers s a (Config.freeWord s.draws)) ∧
    (blockAddr a.addr ∈ ([0x0002C, 0x00030, 0x00034] : List Addr) → Answers s a 0)

/-- R76, 93 S6: an access that is misaligned or not a full word stops the model with a host fault. -/
def Obligations.MisalignedAccessFaults : Prop :=
  ∀ (s : State) (a : Access) (v : Word), a.addr % 4 ≠ 0 ∨ a.size ≠ 4 ∨ a.lanes ≠ 0xF →
    hostRead a s = .fault .misaligned ∧ hostWrite a v s = .fault .misaligned

/-- R74: the block ignores the address bits above bit 19. -/
def Obligations.HighAddressBitsIgnored : Prop :=
  ∀ (s : State) (a : Access) (v : Word) (k : Nat),
    hostRead { a with addr := a.addr + k * 0x100000 } s = hostRead a s ∧
    hostWrite { a with addr := a.addr + k * 0x100000 } v s = hostWrite a v s

/-- R209, R210: what raises and drops the interrupt output besides completion: issue and acknowledgement drop it, a CTRL write without reset
makes it DONE or nothing, and reset drops it. -/
def Obligations.IrqFollowsEnableAndDone : Prop :=
  ∀ (s u : State) (a : Access) (v : Word), a.ok = true → hostWrite a v s = .next u →
    (blockAddr a.addr = 0x00028 → s.busy = false → u.irq = false) ∧
    (blockAddr a.addr = 0x00024 → v.getLsbD 1 = true → u.irq = false) ∧
    (blockAddr a.addr = 0x00020 → v.getLsbD 1 = false → u.irq = (v.getLsbD 0 && s.done)) ∧
    (blockAddr a.addr = 0x00020 → v.getLsbD 1 = true → u.irq = false)
end

