-- ==== Sys2Proof/Laws/Memory.lean ====
section
/-! SUPPORT. The laws of sparse memory: a read after a write, other cells alone, the canonical form kept, equal cells mean equal memories. -/

namespace Sys2Proof.Machine

variable {α : Type}

@[simp] theorem cell_nil (k : Nat) : Memory.cell ([] : Memory α) k = none := rfl

@[simp] theorem cell_clear (k : Nat) : Memory.cell (Memory.clear : Memory α) k = none := rfl

theorem cell_put (m : Memory α) (k j : Nat) (v : α) (h : m.wf) :
    (m.put k v).cell j = if j = k then some v else m.cell j := by
  induction m with
  | nil => simp [Memory.put, Memory.cell]
  | cons e m ih =>
    obtain ⟨a, w⟩ := e
    have ht : Memory.wf m := (List.pairwise_cons.mp h).2
    simp only [Memory.put]
    split
    · simp [Memory.cell]
    · split
      · subst_vars
        simp only [Memory.cell]
        split <;> simp_all
      · simp only [Memory.cell, ih ht]
        split
        · subst_vars
          rw [if_neg]; omega
        · rfl

@[simp] theorem cell_put_self (m : Memory α) (k : Nat) (v : α) (h : m.wf) : (m.put k v).cell k = some v := by
  simp [cell_put m k k v h]

theorem cell_put_other (m : Memory α) (k j : Nat) (v : α) (h : m.wf) (hj : j ≠ k) : (m.put k v).cell j = m.cell j := by
  simp [cell_put m k j v h, hj]

/-- The head of a memory after a write: the written index or the old head. -/
theorem put_lower (m : Memory α) (k b : Nat) (v : α) (hb : b < k) (h : ∀ e ∈ m, b < e.1) :
    ∀ e ∈ m.put k v, b < e.1 := by
  induction m with
  | nil => simpa [Memory.put] using hb
  | cons e m ih =>
    simp only [Memory.put]
    split
    · intro x hx
      rcases List.mem_cons.mp hx with rfl | hx
      · exact hb
      · exact h x hx
    · split
      · intro x hx
        rcases List.mem_cons.mp hx with rfl | hx
        · exact hb
        · exact h x (List.mem_cons_of_mem _ hx)
      · intro x hx
        rcases List.mem_cons.mp hx with rfl | hx
        · exact h _ List.mem_cons_self
        · exact ih (fun y hy => h y (List.mem_cons_of_mem _ hy)) x hx

/-- A write keeps the canonical form. -/
theorem put_wf (m : Memory α) (k : Nat) (v : α) (h : m.wf) : (m.put k v).wf := by
  induction m with
  | nil => simp [Memory.put, Memory.wf]
  | cons e m ih =>
    obtain ⟨a, w⟩ := e
    obtain ⟨hlow, ht⟩ := List.pairwise_cons.mp h
    simp only [Memory.put]
    split
    · refine List.pairwise_cons.mpr ⟨?_, h⟩
      intro x hx
      rcases List.mem_cons.mp hx with rfl | hx
      · assumption
      · exact lt_trans (by assumption) (hlow x hx)
    · split
      · subst_vars
        exact List.pairwise_cons.mpr ⟨hlow, ht⟩
      · exact List.pairwise_cons.mpr ⟨put_lower m k a v (by omega) hlow, ih ht⟩

/-- A sequence write keeps the canonical form. -/
theorem putList_wf (vs : List α) (m : Memory α) (k : Nat) (h : m.wf) : (m.putList k vs).wf := by
  induction vs generalizing m k with
  | nil => exact h
  | cons v vs ih => exact ih _ _ (put_wf m k v h)

/-- A sequence write: the cells of the range hold the sequence, every other cell is as before. -/
theorem cell_putList (vs : List α) (m : Memory α) (k j : Nat) (h : m.wf) :
    (m.putList k vs).cell j = if k ≤ j ∧ j < k + vs.length then vs[j - k]? else m.cell j := by
  induction vs generalizing m k with
  | nil =>
    simp only [Memory.putList, List.length_nil]
    rw [if_neg (by omega)]
  | cons v vs ih =>
    simp only [Memory.putList, ih _ _ (put_wf m k v h), cell_put m k j v h, List.length_cons]
    by_cases hj : j = k
    · subst hj
      rw [if_neg (by omega), if_pos rfl, if_pos (by omega)]
      simp
    · by_cases hr : k + 1 ≤ j ∧ j < k + 1 + vs.length
      · rw [if_pos hr, if_pos (by omega)]
        have : j - k = (j - (k + 1)) + 1 := by omega
        rw [this, List.getElem?_cons_succ]
      · rw [if_neg hr, if_neg hj, if_neg (by omega)]

theorem cell_putList_in (vs : List α) (m : Memory α) (j : Nat) (h : m.wf) (hj : j < vs.length) :
    (m.putList 0 vs).cell j = vs[j]? := by
  rw [cell_putList vs m 0 j h, if_pos (by omega)]; simp

theorem cell_putList_out (vs : List α) (m : Memory α) (j : Nat) (h : m.wf) (hj : vs.length ≤ j) :
    (m.putList 0 vs).cell j = m.cell j := by
  rw [cell_putList vs m 0 j h, if_neg (by omega)]

/-- An index below every listed index holds `⊥`. -/
theorem cell_below (m : Memory α) (k : Nat) (h : ∀ e ∈ m, k < e.1) : m.cell k = none := by
  induction m with
  | nil => rfl
  | cons e m ih =>
    have := h e List.mem_cons_self
    simp only [Memory.cell]
    rw [if_neg (by omega)]
    exact ih fun x hx => h x (List.mem_cons_of_mem _ hx)

/-- Equal cells mean equal memories: the canonical form is unique. -/
theorem ext_of_wf (m m' : Memory α) (h : m.wf) (h' : m'.wf) (hc : ∀ k, m.cell k = m'.cell k) : m = m' := by
  induction m generalizing m' with
  | nil =>
    cases m' with
    | nil => rfl
    | cons e m' => simpa [Memory.cell] using hc e.1
  | cons e m ih =>
    cases m' with
    | nil => simpa [Memory.cell] using hc e.1
    | cons e' m' =>
      obtain ⟨a, v⟩ := e
      obtain ⟨a', v'⟩ := e'
      obtain ⟨hlow, ht⟩ := List.pairwise_cons.mp h
      obtain ⟨hlow', ht'⟩ := List.pairwise_cons.mp h'
      have haa : a = a' := by
        rcases Nat.lt_trichotomy a a' with hl | hl | hl
        · have h1 := hc a
          rw [show Memory.cell ((a, v) :: m) a = some v by simp [Memory.cell]] at h1
          rw [cell_below] at h1
          · cases h1
          · intro x hx
            rcases List.mem_cons.mp hx with rfl | hx
            · exact hl
            · exact lt_trans hl (hlow' x hx)
        · exact hl
        · have h1 := hc a'
          rw [show Memory.cell ((a', v') :: m') a' = some v' by simp [Memory.cell]] at h1
          rw [cell_below] at h1
          · cases h1
          · intro x hx
            rcases List.mem_cons.mp hx with rfl | hx
            · exact hl
            · exact lt_trans hl (hlow x hx)
      subst haa
      have hv : v = v' := by simpa [Memory.cell] using hc a
      subst hv
      have : m = m' := by
        refine ih m' ht ht' fun k => ?_
        have h1 := hc k
        simp only [Memory.cell] at h1
        by_cases hk : k = a
        · subst hk
          rw [cell_below m k hlow, cell_below m' k hlow']
        · rwa [if_neg hk, if_neg hk] at h1
      rw [this]

theorem fits_nil (cap : Nat) : Memory.Fits cap ([] : Memory α) := ⟨List.Pairwise.nil, fun _ _ => rfl⟩

/-- A write below the capacity keeps a memory within it. -/
theorem fits_put (cap k : Nat) (m : Memory α) (v : α) (h : m.Fits cap) (hk : k < cap) : (m.put k v).Fits cap := by
  refine ⟨put_wf m k v h.1, fun j hj => ?_⟩
  rw [cell_put_other m k j v h.1 (by omega)]
  exact h.2 j hj

/-- A sequence write that ends within the capacity keeps a memory within it. -/
theorem fits_putList (cap k : Nat) (m : Memory α) (vs : List α) (h : m.Fits cap) (hk : k + vs.length ≤ cap ∨ vs = []) :
    (m.putList k vs).Fits cap := by
  refine ⟨putList_wf vs m k h.1, fun j hj => ?_⟩
  rw [cell_putList vs m k j h.1]
  rcases hk with hk | rfl
  · rw [if_neg (by omega)]; exact h.2 j hj
  · rw [if_neg (by simp)]; exact h.2 j hj

end Sys2Proof.Machine
end

