-- ==== Sys2Proof/Laws/Tree.lean ====
section
/-! SUPPORT. The laws of trees: sizes and counts (R21), unique decoding of the flattened form (R20), paths (R165), and the pre-order layout (R52). -/

namespace Sys2Proof.Machine

@[simp] theorem CodeTree.size_pos (t : CodeTree) : 0 < t.size := by
  cases t <;> simp [CodeTree.size]

@[simp] theorem CodeTree.shape_length (t : CodeTree) : t.shape.length = t.size := by
  induction t with
  | leaf x => rfl
  | node z o hz ho => simp [CodeTree.shape, CodeTree.size, hz, ho]; omega

@[simp] theorem CodeTree.leaves_length (t : CodeTree) : t.leaves.length = t.leafCount := by
  induction t with
  | leaf x => rfl
  | node z o hz ho => simp [CodeTree.leaves, CodeTree.leafCount, hz, ho]

theorem CodeTree.size_succ (t : CodeTree) : t.size + 1 = 2 * t.leafCount := by
  induction t with
  | leaf x => rfl
  | node z o hz ho => simp only [CodeTree.size, CodeTree.leafCount]; omega

theorem CodeTree.shape_zeros (t : CodeTree) : zeroBits t.shape = t.leafCount := by
  induction t with
  | leaf x => rfl
  | node z o hz ho => simp_all [zeroBits, CodeTree.shape, CodeTree.leafCount]

theorem CodeTree.depth_bound (t : CodeTree) : 2 * t.depth + 1 ≤ t.size := by
  induction t with
  | leaf x => simp [CodeTree.depth, CodeTree.size]
  | node z o hz ho => simp only [CodeTree.depth, CodeTree.size]; omega

theorem CodeTree.shape_ne_nil (t : CodeTree) : t.shape ≠ [] := by cases t <;> simp [CodeTree.shape]

theorem CodeTree.leaves_ne_nil (t : CodeTree) : t.leaves ≠ [] := by
  intro h
  have h1 := t.leaves_length
  have h2 := t.size_succ
  rw [h, List.length_nil] at h1
  omega

/-- Unique decoding (R20): two trees whose flattened forms begin two equal streams are the same tree, and the streams go on alike. -/
theorem CodeTree.flat_inj (t t' : CodeTree) (r r' : List Bool) (l l' : List Symbol) (hs : t.shape ++ r = t'.shape ++ r')
    (hl : t.leaves ++ l = t'.leaves ++ l') : t = t' ∧ r = r' ∧ l = l' := by
  induction t generalizing t' r r' l l' with
  | leaf x =>
    cases t' with
    | leaf y => simp_all [CodeTree.shape, CodeTree.leaves]
    | node z o => simp [CodeTree.shape] at hs
  | node z o hz ho =>
    cases t' with
    | leaf y => simp [CodeTree.shape] at hs
    | node z' o' =>
      simp only [CodeTree.shape, CodeTree.leaves, List.cons_append, List.append_assoc, List.cons.injEq, true_and] at hs hl
      obtain ⟨rfl, hs, hl⟩ := hz z' _ _ _ _ hs hl
      obtain ⟨rfl, hs, hl⟩ := ho o' _ _ _ _ hs hl
      exact ⟨rfl, hs, hl⟩

/-- No tree's shape begins another's, except an equal one. -/
theorem CodeTree.shape_inj (t t' : CodeTree) (r r' : List Bool) (hs : t.shape ++ r = t'.shape ++ r') :
    t.shape = t'.shape ∧ r = r' := by
  induction t generalizing t' r r' with
  | leaf x =>
    cases t' with
    | leaf y => simp_all [CodeTree.shape]
    | node z o => simp [CodeTree.shape] at hs
  | node z o hz ho =>
    cases t' with
    | leaf y => simp [CodeTree.shape] at hs
    | node z' o' =>
      simp only [CodeTree.shape, List.cons_append, List.append_assoc, List.cons.injEq, true_and] at hs
      obtain ⟨h1, hs⟩ := hz z' _ _ hs
      obtain ⟨h2, hs⟩ := ho o' _ _ hs
      exact ⟨by simp [CodeTree.shape, h1, h2], hs⟩

/-! ### Paths -/

theorem CodeTree.paths_syms (t : CodeTree) : t.paths.map Prod.fst = t.leaves := by
  induction t with
  | leaf x => rfl
  | node z o hz ho => simp_all [CodeTree.paths, CodeTree.leaves, Function.comp_def]

theorem CodeTree.path_length (t : CodeTree) (x : Symbol) (p : List Bool) (h : (x, p) ∈ t.paths) : p.length ≤ t.depth := by
  induction t generalizing p with
  | leaf y => simp_all [CodeTree.paths]
  | node z o hz ho =>
    simp only [CodeTree.paths, List.mem_append, List.mem_map, Prod.mk.injEq, Prod.exists] at h
    rcases h with ⟨y, q, hq, rfl, rfl⟩ | ⟨y, q, hq, rfl, rfl⟩
    · have := hz q hq; simp only [CodeTree.depth, List.length_cons]; omega
    · have := ho q hq; simp only [CodeTree.depth, List.length_cons]; omega

theorem CodeTree.path_ne_nil (t : CodeTree) (x : Symbol) (p : List Bool) (ht : t.degenerate = false) (h : (x, p) ∈ t.paths) : p ≠ [] := by
  cases t with
  | leaf y => simp [CodeTree.degenerate] at ht
  | node z o =>
    simp only [CodeTree.paths, List.mem_append, List.mem_map, Prod.mk.injEq, Prod.exists] at h
    rcases h with ⟨y, q, hq, rfl, rfl⟩ | ⟨y, q, hq, rfl, rfl⟩ <;> simp

/-! ### Layout -/

@[simp] theorem CodeTree.layout_length (t : CodeTree) (i : Nat) : (t.layout i).length = t.size := by
  induction t generalizing i with
  | leaf x => rfl
  | node z o hz ho => simp [CodeTree.layout, CodeTree.size, hz, ho]; omega

theorem CodeTree.layout_root_leaf (x : Symbol) (i : Nat) : ((CodeTree.leaf x).layout i)[0]? = some (.leaf x) := rfl

theorem CodeTree.layout_root_node (z o : CodeTree) (i : Nat) :
    ((CodeTree.node z o).layout i)[0]? =
      some (.internal (BitVec.ofNat 15 (i + 1)) (BitVec.ofNat 15 (i + 1 + z.size))) := rfl

theorem subtreeAt_zero (m : Memory Node) (i : Nat) (z o : CodeTree) (h : SubtreeAt m i (.node z o)) : SubtreeAt m (i + 1) z := by
  intro k hk
  have := h (k + 1) (by simp only [CodeTree.size]; omega)
  rw [show i + 1 + k = i + (k + 1) by omega, this]
  simp only [CodeTree.layout, List.getElem?_cons_succ]
  rw [List.getElem?_append_left (by simpa using hk)]

theorem subtreeAt_one (m : Memory Node) (i : Nat) (z o : CodeTree) (h : SubtreeAt m i (.node z o)) :
    SubtreeAt m (i + 1 + z.size) o := by
  intro k hk
  have := h (1 + z.size + k) (by simp only [CodeTree.size]; omega)
  rw [show i + 1 + z.size + k = i + (1 + z.size + k) by omega, this]
  rw [show 1 + z.size + k = (z.size + k) + 1 by omega]
  simp only [CodeTree.layout, List.getElem?_cons_succ]
  rw [List.getElem?_append_right (by simp)]
  simp

theorem subtreeAt_leaf (m : Memory Node) (i : Nat) (x : Symbol) (h : SubtreeAt m i (.leaf x)) : m.cell i = some (.leaf x) := by
  simpa [CodeTree.layout] using h 0 (by simp [CodeTree.size])

theorem subtreeAt_node (m : Memory Node) (i : Nat) (z o : CodeTree) (h : SubtreeAt m i (.node z o)) :
    m.cell i = some (.internal (BitVec.ofNat 15 (i + 1)) (BitVec.ofNat 15 (i + 1 + z.size))) := by
  simpa [CodeTree.layout] using h 0 (by simp)

theorem idx_toNat (i : Nat) (h : i < 2 ^ 15) : (BitVec.ofNat 15 i).toNat = i := by
  simp only [BitVec.toNat_ofNat]; omega

/-- A loaded tree stands at index 0 of node memory. -/
theorem State.HoldsTree.subtree {s : State} {t : CodeTree} (h : s.HoldsTree t) : SubtreeAt s.node 0 t := by
  intro k _
  simpa using h.image k

end Sys2Proof.Machine
end

