-- ==== Sys2Proof/Laws/TreeWalk.lean ====
section
/-! SUPPORT. What the tree helpers and the codec loops do on a tree in its pre-order layout (R129 to R131, R162, R163). -/

namespace Sys2Proof.Machine

/-- `flatNode` on a subtree in layout gives its flattened form (R130, R142). -/
theorem flatNode_layout (m : Memory Node) (t : CodeTree) (i fuel : Nat) (h : SubtreeAt m i t) (hi : i + t.size ≤ 2 ^ 15)
    (hf : t.depth < fuel) : flatNode m fuel (BitVec.ofNat 15 i) = some (t.shape, t.leaves) := by
  induction t generalizing i fuel with
  | leaf x =>
    obtain ⟨f, rfl⟩ : ∃ f, fuel = f + 1 := ⟨fuel - 1, by omega⟩
    simp only [CodeTree.size] at hi
    simp [flatNode, idx_toNat i (by omega), subtreeAt_leaf m i x h, CodeTree.shape, CodeTree.leaves]
  | node z o hz ho =>
    obtain ⟨f, rfl⟩ : ∃ f, fuel = f + 1 := ⟨fuel - 1, by omega⟩
    simp only [CodeTree.size, CodeTree.depth] at hi hf
    have hzs := z.size_pos
    have hos := o.size_pos
    simp only [flatNode, idx_toNat i (by omega), subtreeAt_node m i z o h,
      hz (i + 1) f (subtreeAt_zero m i z o h) (by omega) (by omega),
      ho (i + 1 + z.size) f (subtreeAt_one m i z o h) (by omega) (by omega), CodeTree.shape, CodeTree.leaves]

/-- `leafPaths` on a subtree in layout gives its leaves with their paths (R131). -/
theorem leafPaths_layout (m : Memory Node) (t : CodeTree) (i fuel : Nat) (p : List Bool) (h : SubtreeAt m i t)
    (hi : i + t.size ≤ 2 ^ 15) (hf : t.depth < fuel) :
    leafPaths m fuel (BitVec.ofNat 15 i) p = some (t.paths.map fun e => (e.1, p ++ e.2)) := by
  induction t generalizing i fuel p with
  | leaf x =>
    obtain ⟨f, rfl⟩ : ∃ f, fuel = f + 1 := ⟨fuel - 1, by omega⟩
    simp only [CodeTree.size] at hi
    simp [leafPaths, idx_toNat i (by omega), subtreeAt_leaf m i x h, CodeTree.paths]
  | node z o hz ho =>
    obtain ⟨f, rfl⟩ : ∃ f, fuel = f + 1 := ⟨fuel - 1, by omega⟩
    simp only [CodeTree.size, CodeTree.depth] at hi hf
    have hzs := z.size_pos
    have hos := o.size_pos
    simp only [leafPaths, idx_toNat i (by omega), subtreeAt_node m i z o h,
      hz (i + 1) f _ (subtreeAt_zero m i z o h) (by omega) (by omega),
      ho (i + 1 + z.size) f _ (subtreeAt_one m i z o h) (by omega) (by omega), CodeTree.paths]
    simp [Function.comp_def]

/-- DECODE's walk down one code (R163): from the root of a subtree in layout, the bits of a leaf's path, which is not empty, complete that
leaf's symbol and put the cursor back on the root, unless the output is full. -/
theorem decodeBits_path (m : Memory Node) (cap : Nat) (t : CodeTree) (i j start : Nat) (x : Symbol) (p bs : List Bool)
    (out : List Symbol) (h : SubtreeAt m i t) (hi : i + t.size ≤ 2 ^ 15) (hp : (x, p) ∈ t.paths) (hne : p ≠ []) :
    decodeBits m cap j (p ++ bs) (BitVec.ofNat 15 i) start out =
      if out.length = cap then .error (.raise ⟨.capacity, 4, j + p.length - 1⟩)
      else decodeBits m cap (j + p.length) bs 0 (j + p.length) (out ++ [x]) := by
  induction t generalizing i j p with
  | leaf y => simp_all [CodeTree.paths]
  | node z o hz ho =>
    simp only [CodeTree.size] at hi
    have hzs := z.size_pos
    have hos := o.size_pos
    have hroot := subtreeAt_node m i z o h
    have hzero := subtreeAt_zero m i z o h
    have hone := subtreeAt_one m i z o h
    have hiN := idx_toNat i (by omega)
    have hzN := idx_toNat (i + 1) (by omega)
    have hoN := idx_toNat (i + 1 + z.size) (by omega)
    simp only [CodeTree.paths, List.mem_append, List.mem_map, Prod.mk.injEq, Prod.exists] at hp
    rcases hp with ⟨y, q, hq, rfl, rfl⟩ | ⟨y, q, hq, rfl, rfl⟩
    · simp only [List.cons_append, decodeBits, hiN, hroot, childOf, Bool.false_eq_true, if_false, hzN]
      cases z with
      | leaf w =>
        simp only [CodeTree.paths, List.mem_singleton, Prod.mk.injEq] at hq
        obtain ⟨rfl, rfl⟩ := hq
        simp [subtreeAt_leaf m (i + 1) _ hzero]
      | node zz zo =>
        have hqne := CodeTree.path_ne_nil (.node zz zo) _ _ rfl hq
        simp only [subtreeAt_node m (i + 1) zz zo hzero, hz (i + 1) (j + 1) q hzero (by omega) hq hqne,
          List.length_cons]
        rw [show j + 1 + q.length = j + (q.length + 1) by omega]
    · simp only [List.cons_append, decodeBits, hiN, hroot, childOf, if_true, hoN]
      cases o with
      | leaf w =>
        simp only [CodeTree.paths, List.mem_singleton, Prod.mk.injEq] at hq
        obtain ⟨rfl, rfl⟩ := hq
        simp [subtreeAt_leaf m (i + 1 + z.size) _ hone]
      | node oz oo =>
        have hqne := CodeTree.path_ne_nil (.node oz oo) _ _ rfl hq
        simp only [subtreeAt_node m (i + 1 + z.size) oz oo hone, ho (i + 1 + z.size) (j + 1) q hone (by omega) hq hqne,
          List.length_cons]
        rw [show j + 1 + q.length = j + (q.length + 1) by omega]

/-- `codeOf` answers with a pair of the table. -/
theorem codeOf_mem (table : List (Symbol × List Bool)) (x : Symbol) (p : List Bool) (h : codeOf table x = some p) :
    (x, p) ∈ table := by
  induction table with
  | nil => simp [codeOf] at h
  | cons e table ih =>
    obtain ⟨y, q⟩ := e
    simp only [codeOf] at h
    split at h
    · simp_all
    · exact List.mem_cons_of_mem _ (ih h)

/-- `codeOf` finds a code exactly for the symbols of the table. -/
theorem codeOf_isSome (table : List (Symbol × List Bool)) (x : Symbol) :
    (codeOf table x).isSome = true ↔ x ∈ table.map Prod.fst := by
  induction table with
  | nil => simp [codeOf]
  | cons e table ih =>
    obtain ⟨y, q⟩ := e
    simp only [codeOf]
    split
    · simp_all
    · have : x ≠ y := fun h => by simp_all
      simp_all

/-- The loaded tree's flattened form is what FLATTEN reads (R142). -/
theorem State.HoldsTree.flatRoot {s : State} {t : CodeTree} (h : s.HoldsTree t) (hl : s.params.Legal) :
    s.flatRoot = some (t.shape, t.leaves) := by
  have h1 := t.depth_bound
  have h2 := h.fits
  have h3 := h.count
  obtain ⟨-, ⟨-, h4⟩, -⟩ := hl
  exact flatNode_layout s.node t 0 s.nodeCount.toNat h.subtree (by omega) (by omega)

/-- The loaded tree's paths are its code table (R161). -/
theorem State.HoldsTree.codeTable {s : State} {t : CodeTree} (h : s.HoldsTree t) (hl : s.params.Legal) :
    s.codeTable = some t.paths := by
  have h1 := t.depth_bound
  have h2 := h.fits
  have h3 := h.count
  obtain ⟨-, ⟨-, h4⟩, -⟩ := hl
  have := leafPaths_layout s.node t 0 s.nodeCount.toNat [] h.subtree (by omega) (by omega)
  simpa [State.codeTable] using this

end Sys2Proof.Machine
end

