-- ==== Sys2Proof/Laws/Codec.lean ====
section
/-! SUPPORT. What the loops of ENCODE and DECODE do on a whole text or message (R162, R163), and that every message is a sequence of whole codes
followed by nothing or by an unfinished one. -/

namespace Sys2Proof.Machine

/-- ENCODE's loop runs through symbols that have codes and fit, appending the codes. -/
theorem encodeText_codes (table : List (Symbol × List Bool)) (cap i : Nat) (xs rest : List Symbol) (codes : List (List Bool))
    (out : List Bool) (h : xs.map (codeOf table) = codes.map some) (hc : out.length + codes.flatten.length ≤ cap) :
    encodeText table cap i (xs ++ rest) out = encodeText table cap (i + xs.length) rest (out ++ codes.flatten) := by
  induction xs generalizing i codes out with
  | nil =>
    have : codes = [] := by simpa using h.symm
    simp [this]
  | cons x xs ih =>
    cases codes with
    | nil => simp at h
    | cons p codes =>
      simp only [List.map_cons, List.cons.injEq] at h
      simp only [List.flatten_cons, List.length_append] at hc
      simp only [List.cons_append, encodeText, h.1]
      rw [if_neg (by omega), ih (i + 1) codes (out ++ p) h.2 (by rw [List.length_append]; omega)]
      simp [Nat.add_assoc, Nat.add_comm 1]

/-- Either every symbol of a text has a code, or there is a first one that has none. -/
theorem codes_or_unknown (table : List (Symbol × List Bool)) (xs : List Symbol) :
    (∃ codes : List (List Bool), xs.map (codeOf table) = codes.map some) ∨
    (∃ ys x rest, ∃ codes : List (List Bool), xs = ys ++ x :: rest ∧ ys.map (codeOf table) = codes.map some ∧ codeOf table x = none) := by
  induction xs with
  | nil => exact .inl ⟨[], rfl⟩
  | cons x xs ih =>
    cases hx : codeOf table x with
    | none => exact .inr ⟨[], x, xs, [], rfl, rfl, hx⟩
    | some p =>
      rcases ih with ⟨codes, hc⟩ | ⟨ys, y, rest, codes, rfl, hc, hy⟩
      · exact .inl ⟨p :: codes, by simp [hx, hc]⟩
      · exact .inr ⟨x :: ys, y, rest, p :: codes, rfl, by simp [hx, hc], hy⟩

/-- DECODE's loop runs through whole codes, appending their leaves' symbols, while the output has room (R163). -/
theorem decodeBits_leaves (m : Memory Node) (cap : Nat) (t : CodeTree) (j : Nat) (ps : List (Symbol × List Bool)) (q : List Bool)
    (out : List Symbol) (h : SubtreeAt m 0 t) (hi : t.size ≤ 2 ^ 15) (hd : t.degenerate = false) (hp : LeavesOf t ps)
    (hc : out.length + ps.length ≤ cap) :
    decodeBits m cap j (bitsOf ps ++ q) 0 j out =
      decodeBits m cap (j + (bitsOf ps).length) q 0 (j + (bitsOf ps).length) (out ++ ps.map Prod.fst) := by
  induction ps generalizing j out with
  | nil => simp [bitsOf]
  | cons e ps ih =>
    obtain ⟨x, p⟩ := e
    have hx : (x, p) ∈ t.paths := hp _ List.mem_cons_self
    have hb : bitsOf ((x, p) :: ps) = p ++ bitsOf ps := by simp [bitsOf]
    simp only [List.length_cons] at hc
    rw [hb, List.append_assoc, show (0 : NodeIdx) = BitVec.ofNat 15 0 from rfl,
      decodeBits_path m cap t 0 j j x p _ out h (by omega) hx (t.path_ne_nil x p hd hx), if_neg (by omega),
      show (BitVec.ofNat 15 0 : NodeIdx) = 0 from rfl,
      ih (j + p.length) (out ++ [x]) (fun e he => hp e (List.mem_cons_of_mem _ he)) (by simp; omega)]
    simp [Nat.add_assoc]

/-- DECODE's loop on a trailing unfinished code below index `i` of node memory (R163, MALFORMED_BITSTREAM). -/
theorem decodeBits_unfinished (m : Memory Node) (cap : Nat) (t : CodeTree) (i j start : Nat) (x : Symbol) (q r : List Bool)
    (out : List Symbol) (h : SubtreeAt m i t) (hi : i + t.size ≤ 2 ^ 15) (hr : r ≠ []) (hp : (x, q ++ r) ∈ t.paths)
    (hne : q ≠ [] ∨ 0 < i) :
    decodeBits m cap j q (BitVec.ofNat 15 i) start out = .error (.raise ⟨.malformedBitstream, 0, start⟩) := by
  induction t generalizing i j q with
  | leaf y => simp_all [CodeTree.paths]
  | node z o hz ho =>
    simp only [CodeTree.size] at hi
    have hzs := z.size_pos
    have hos := o.size_pos
    have hiN := idx_toNat i (by omega)
    have hzN := idx_toNat (i + 1) (by omega)
    have hoN := idx_toNat (i + 1 + z.size) (by omega)
    have hzero := subtreeAt_zero m i z o h
    have hone := subtreeAt_one m i z o h
    cases q with
    | nil =>
      have hi0 : 0 < i := by simpa using hne
      have : BitVec.ofNat 15 i ≠ 0 := by
        intro hbad
        have := congrArg BitVec.toNat hbad
        rw [hiN] at this
        simp at this
        omega
      simp only [decodeBits]
      rw [if_pos this]
    | cons b q =>
      simp only [CodeTree.paths, List.mem_append, List.mem_map, Prod.mk.injEq, Prod.exists, List.cons_append,
        List.cons.injEq] at hp
      simp only [decodeBits, hiN, subtreeAt_node m i z o h]
      rcases hp with ⟨y, q', hq, rfl, hb, rfl⟩ | ⟨y, q', hq, rfl, hb, rfl⟩
      · subst hb
        simp only [childOf, Bool.false_eq_true, if_false, hzN]
        cases z with
        | leaf w => simp_all [CodeTree.paths]
        | node zz zo =>
          simp only [subtreeAt_node m (i + 1) zz zo hzero]
          exact hz (i + 1) (j + 1) q hzero (by omega) hq (.inr (by omega))
      · subst hb
        simp only [childOf, if_true, hoN]
        cases o with
        | leaf w => simp_all [CodeTree.paths]
        | node oz oo =>
          simp only [subtreeAt_node m (i + 1 + z.size) oz oo hone]
          exact ho (i + 1 + z.size) (j + 1) q hone (by omega) hq (.inr (by omega))

theorem CodeTree.paths_ne_nil (t : CodeTree) : t.paths ≠ [] := by
  intro h
  have := t.paths_syms
  rw [h] at this
  exact t.leaves_ne_nil this.symm

/-- Every bit sequence walks down a tree: it passes a leaf, or it ends on the way (R163). -/
theorem CodeTree.walk (t : CodeTree) (bits : List Bool) :
    (∃ x p rest, (x, p) ∈ t.paths ∧ bits = p ++ rest) ∨ (∃ x r, r ≠ [] ∧ (x, bits ++ r) ∈ t.paths) := by
  induction t generalizing bits with
  | leaf y => exact .inl ⟨y, [], bits, by simp [CodeTree.paths], rfl⟩
  | node z o hz ho =>
    cases bits with
    | nil =>
      right
      obtain ⟨⟨x, p⟩, hx⟩ := List.exists_mem_of_ne_nil _ z.paths_ne_nil
      exact ⟨x, false :: p, by simp, by simp [CodeTree.paths, hx]⟩
    | cons b bits =>
      cases b with
      | false =>
        rcases hz bits with ⟨x, p, rest, hx, rfl⟩ | ⟨x, r, hr, hx⟩
        · exact .inl ⟨x, false :: p, rest, by simp [CodeTree.paths, hx], rfl⟩
        · exact .inr ⟨x, r, hr, by simp [CodeTree.paths, hx]⟩
      | true =>
        rcases ho bits with ⟨x, p, rest, hx, rfl⟩ | ⟨x, r, hr, hx⟩
        · exact .inl ⟨x, true :: p, rest, by simp [CodeTree.paths, hx], rfl⟩
        · exact .inr ⟨x, r, hr, by simp [CodeTree.paths, hx]⟩

/-- Every message is a sequence of whole codes followed by nothing or by an unfinished code (R163). -/
theorem CodeTree.parse (t : CodeTree) (hd : t.degenerate = false) (bits : List Bool) :
    ∃ ps q, bits = bitsOf ps ++ q ∧ LeavesOf t ps ∧ (q = [] ∨ UnfinishedCode t q) := by
  induction hn : bits.length using Nat.strong_induction_on generalizing bits with
  | _ n ih =>
    by_cases hb : bits = []
    · exact ⟨[], [], by simp [hb, bitsOf], by simp [LeavesOf], .inl rfl⟩
    · rcases t.walk bits with ⟨x, p, rest, hx, rfl⟩ | ⟨x, r, hr, hx⟩
      · have hp := List.length_pos_iff.mpr (t.path_ne_nil x p hd hx)
        obtain ⟨ps, q, rfl, hps, hq⟩ := ih rest.length (by subst hn; simp; omega) rest rfl
        refine ⟨(x, p) :: ps, q, by simp [bitsOf], ?_, hq⟩
        intro e he
        rcases List.mem_cons.mp he with rfl | he
        · exact hx
        · exact hps e he
      · exact ⟨[], bits, by simp [bitsOf], by simp [LeavesOf], .inr ⟨hb, x, r, hr, hx⟩⟩

/-- No path of a tree begins another (R165). -/
theorem CodeTree.paths_prefixFree (t : CodeTree) : t.paths.Pairwise (fun e f => ¬ e.2 <+: f.2 ∧ ¬ f.2 <+: e.2) := by
  induction t with
  | leaf x => simp [CodeTree.paths]
  | node z o hz ho =>
    simp only [CodeTree.paths, List.pairwise_append, List.pairwise_map, List.cons_prefix_cons, true_and]
    refine ⟨hz, ho, ?_⟩
    intro e he f hf
    obtain ⟨e', -, rfl⟩ := List.mem_map.mp he
    obtain ⟨f', -, rfl⟩ := List.mem_map.mp hf
    simp [List.cons_prefix_cons]

end Sys2Proof.Machine
end

