-- ==== Sys2Proof/Laws/Decode.lean ====
section
/-! SUPPORT. The two fields of a command word as numbers, and which words decode to an illegal command (R101, R103). -/

open Sys2Proof

namespace Sys2Proof.Machine

/-- RSVD is not zero exactly when the bits above bit 3 are not. -/
theorem rsvd_ne (w : Word) : rsvdField w ≠ 0 ↔ w.toNat / 16 ≠ 0 := by
  have hw := w.isLt
  rw [ne_eq, ← BitVec.toNat_inj]
  simp only [rsvdField, BitVec.extractLsb'_toNat, Nat.shiftRight_eq_div_pow]
  simp
  omega

/-- OPCODE is the low four bits. -/
theorem opc (w : Word) : (opcodeField w).toNat = w.toNat % 16 := by
  simp [opcodeField, BitVec.extractLsb'_toNat]

/-- Every word outside R102 decodes to the illegal command that holds it. -/
theorem decode_illegal (w : Word) (h : w.toNat / 16 ≠ 0 ∨ w.toNat % 16 = 0 ∨ 6 ≤ w.toNat % 16) : decode w = .illegal w := by
  unfold decode
  split
  · rfl
  · next hr =>
    rw [rsvd_ne] at hr
    rw [opc]
    split <;> first | rfl | omega

/-- The listed words, as numbers. -/
theorem listed_iff (w : Word) : listedWord w = true ↔ (w.toNat / 16 = 0 ∧ 1 ≤ w.toNat % 16 ∧ w.toNat % 16 ≤ 5) := by
  simp only [listedWord, Bool.or_eq_true, beq_iff_eq, ← BitVec.toNat_inj]
  simp
  omega

end Sys2Proof.Machine
end

