-- ==== Sys2Proof/Laws/State.lean ====
section
/-! SUPPORT. One lemma per field per shared state update, each true by rfl, so that no later proof unfolds a record update. -/

namespace Sys2Proof.Machine

/-! ### complete -/

@[simp] theorem complete_params (s : State) : (complete s).params = s.params := rfl
@[simp] theorem complete_irqEn (s : State) : (complete s).irqEn = s.irqEn := rfl
@[simp] theorem complete_done (s : State) : (complete s).done = true := rfl
@[simp] theorem complete_treeValid (s : State) : (complete s).treeValid = s.treeValid := rfl
@[simp] theorem complete_wrWhileBusy (s : State) : (complete s).wrWhileBusy = s.wrWhileBusy := rfl
@[simp] theorem complete_errCause (s : State) : (complete s).errCause = 0 := rfl
@[simp] theorem complete_errDetail (s : State) : (complete s).errDetail = 0 := rfl
@[simp] theorem complete_errIndex (s : State) : (complete s).errIndex = 0 := rfl
@[simp] theorem complete_shapeLen (s : State) : (complete s).shapeLen = s.shapeLen := rfl
@[simp] theorem complete_leafLen (s : State) : (complete s).leafLen = s.leafLen := rfl
@[simp] theorem complete_msgLen (s : State) : (complete s).msgLen = s.msgLen := rfl
@[simp] theorem complete_textLen (s : State) : (complete s).textLen = s.textLen := rfl
@[simp] theorem complete_nodeCount (s : State) : (complete s).nodeCount = s.nodeCount := rfl
@[simp] theorem complete_shape (s : State) : (complete s).shape = s.shape := rfl
@[simp] theorem complete_leaves (s : State) : (complete s).leaves = s.leaves := rfl
@[simp] theorem complete_msg (s : State) : (complete s).msg = s.msg := rfl
@[simp] theorem complete_text (s : State) : (complete s).text = s.text := rfl
@[simp] theorem complete_node (s : State) : (complete s).node = s.node := rfl
@[simp] theorem complete_pend (s : State) : (complete s).pend = none := rfl
@[simp] theorem complete_agenda (s : State) : (complete s).agenda = s.agenda := rfl
@[simp] theorem complete_rdata (s : State) : (complete s).rdata = s.rdata := rfl
@[simp] theorem complete_draws (s : State) : (complete s).draws = s.draws := rfl

/-! ### raiseError -/

@[simp] theorem raiseError_params (r : Report) (s : State) : (raiseError r s).params = s.params := rfl
@[simp] theorem raiseError_irqEn (r : Report) (s : State) : (raiseError r s).irqEn = s.irqEn := rfl
@[simp] theorem raiseError_done (r : Report) (s : State) : (raiseError r s).done = true := rfl
@[simp] theorem raiseError_treeValid (r : Report) (s : State) : (raiseError r s).treeValid = s.treeValid := rfl
@[simp] theorem raiseError_wrWhileBusy (r : Report) (s : State) : (raiseError r s).wrWhileBusy = s.wrWhileBusy := rfl
@[simp] theorem raiseError_errCause (r : Report) (s : State) : (raiseError r s).errCause = r.cause.code := rfl
@[simp] theorem raiseError_errDetail (r : Report) (s : State) : (raiseError r s).errDetail = r.detail := rfl
@[simp] theorem raiseError_errIndex (r : Report) (s : State) : (raiseError r s).errIndex = BitVec.ofNat 32 r.index := rfl
@[simp] theorem raiseError_shapeLen (r : Report) (s : State) : (raiseError r s).shapeLen = s.shapeLen := rfl
@[simp] theorem raiseError_leafLen (r : Report) (s : State) : (raiseError r s).leafLen = s.leafLen := rfl
@[simp] theorem raiseError_msgLen (r : Report) (s : State) : (raiseError r s).msgLen = s.msgLen := rfl
@[simp] theorem raiseError_textLen (r : Report) (s : State) : (raiseError r s).textLen = s.textLen := rfl
@[simp] theorem raiseError_nodeCount (r : Report) (s : State) : (raiseError r s).nodeCount = s.nodeCount := rfl
@[simp] theorem raiseError_shape (r : Report) (s : State) : (raiseError r s).shape = s.shape := rfl
@[simp] theorem raiseError_leaves (r : Report) (s : State) : (raiseError r s).leaves = s.leaves := rfl
@[simp] theorem raiseError_msg (r : Report) (s : State) : (raiseError r s).msg = s.msg := rfl
@[simp] theorem raiseError_text (r : Report) (s : State) : (raiseError r s).text = s.text := rfl
@[simp] theorem raiseError_node (r : Report) (s : State) : (raiseError r s).node = s.node := rfl
@[simp] theorem raiseError_pend (r : Report) (s : State) : (raiseError r s).pend = none := rfl
@[simp] theorem raiseError_agenda (r : Report) (s : State) : (raiseError r s).agenda = s.agenda := rfl
@[simp] theorem raiseError_rdata (r : Report) (s : State) : (raiseError r s).rdata = s.rdata := rfl
@[simp] theorem raiseError_draws (r : Report) (s : State) : (raiseError r s).draws = s.draws := rfl

/-! ### acceptCommand -/

@[simp] theorem acceptCommand_params (w : Word) (s : State) : (acceptCommand w s).params = s.params := rfl
@[simp] theorem acceptCommand_irqEn (w : Word) (s : State) : (acceptCommand w s).irqEn = s.irqEn := rfl
@[simp] theorem acceptCommand_done (w : Word) (s : State) : (acceptCommand w s).done = false := rfl
@[simp] theorem acceptCommand_treeValid (w : Word) (s : State) : (acceptCommand w s).treeValid = s.treeValid := rfl
@[simp] theorem acceptCommand_wrWhileBusy (w : Word) (s : State) : (acceptCommand w s).wrWhileBusy = s.wrWhileBusy := rfl
@[simp] theorem acceptCommand_errCause (w : Word) (s : State) : (acceptCommand w s).errCause = 0 := rfl
@[simp] theorem acceptCommand_errDetail (w : Word) (s : State) : (acceptCommand w s).errDetail = 0 := rfl
@[simp] theorem acceptCommand_errIndex (w : Word) (s : State) : (acceptCommand w s).errIndex = 0 := rfl
@[simp] theorem acceptCommand_shapeLen (w : Word) (s : State) : (acceptCommand w s).shapeLen = s.shapeLen := rfl
@[simp] theorem acceptCommand_leafLen (w : Word) (s : State) : (acceptCommand w s).leafLen = s.leafLen := rfl
@[simp] theorem acceptCommand_msgLen (w : Word) (s : State) : (acceptCommand w s).msgLen = s.msgLen := rfl
@[simp] theorem acceptCommand_textLen (w : Word) (s : State) : (acceptCommand w s).textLen = s.textLen := rfl
@[simp] theorem acceptCommand_nodeCount (w : Word) (s : State) : (acceptCommand w s).nodeCount = s.nodeCount := rfl
@[simp] theorem acceptCommand_shape (w : Word) (s : State) : (acceptCommand w s).shape = s.shape := rfl
@[simp] theorem acceptCommand_leaves (w : Word) (s : State) : (acceptCommand w s).leaves = s.leaves := rfl
@[simp] theorem acceptCommand_msg (w : Word) (s : State) : (acceptCommand w s).msg = s.msg := rfl
@[simp] theorem acceptCommand_text (w : Word) (s : State) : (acceptCommand w s).text = s.text := rfl
@[simp] theorem acceptCommand_node (w : Word) (s : State) : (acceptCommand w s).node = s.node := rfl
@[simp] theorem acceptCommand_pend (w : Word) (s : State) : (acceptCommand w s).pend = some w := rfl
@[simp] theorem acceptCommand_agenda (w : Word) (s : State) : (acceptCommand w s).agenda = s.agenda := rfl
@[simp] theorem acceptCommand_rdata (w : Word) (s : State) : (acceptCommand w s).rdata = s.rdata := rfl
@[simp] theorem acceptCommand_draws (w : Word) (s : State) : (acceptCommand w s).draws = s.draws := rfl

/-! ### acknowledge -/

@[simp] theorem acknowledge_params (s : State) : (acknowledge s).params = s.params := rfl
@[simp] theorem acknowledge_irqEn (s : State) : (acknowledge s).irqEn = s.irqEn := rfl
@[simp] theorem acknowledge_done (s : State) : (acknowledge s).done = false := rfl
@[simp] theorem acknowledge_treeValid (s : State) : (acknowledge s).treeValid = s.treeValid := rfl
@[simp] theorem acknowledge_wrWhileBusy (s : State) : (acknowledge s).wrWhileBusy = s.wrWhileBusy := rfl
@[simp] theorem acknowledge_errCause (s : State) : (acknowledge s).errCause = s.errCause := rfl
@[simp] theorem acknowledge_errDetail (s : State) : (acknowledge s).errDetail = s.errDetail := rfl
@[simp] theorem acknowledge_errIndex (s : State) : (acknowledge s).errIndex = s.errIndex := rfl
@[simp] theorem acknowledge_shapeLen (s : State) : (acknowledge s).shapeLen = s.shapeLen := rfl
@[simp] theorem acknowledge_leafLen (s : State) : (acknowledge s).leafLen = s.leafLen := rfl
@[simp] theorem acknowledge_msgLen (s : State) : (acknowledge s).msgLen = s.msgLen := rfl
@[simp] theorem acknowledge_textLen (s : State) : (acknowledge s).textLen = s.textLen := rfl
@[simp] theorem acknowledge_nodeCount (s : State) : (acknowledge s).nodeCount = s.nodeCount := rfl
@[simp] theorem acknowledge_shape (s : State) : (acknowledge s).shape = s.shape := rfl
@[simp] theorem acknowledge_leaves (s : State) : (acknowledge s).leaves = s.leaves := rfl
@[simp] theorem acknowledge_msg (s : State) : (acknowledge s).msg = s.msg := rfl
@[simp] theorem acknowledge_text (s : State) : (acknowledge s).text = s.text := rfl
@[simp] theorem acknowledge_node (s : State) : (acknowledge s).node = s.node := rfl
@[simp] theorem acknowledge_pend (s : State) : (acknowledge s).pend = s.pend := rfl
@[simp] theorem acknowledge_agenda (s : State) : (acknowledge s).agenda = s.agenda := rfl
@[simp] theorem acknowledge_rdata (s : State) : (acknowledge s).rdata = s.rdata := rfl
@[simp] theorem acknowledge_draws (s : State) : (acknowledge s).draws = s.draws := rfl

/-! ### resetState -/

@[simp] theorem resetState_params (s : State) : (resetState s).params = s.params := rfl
@[simp] theorem resetState_irqEn (s : State) : (resetState s).irqEn = false := rfl
@[simp] theorem resetState_done (s : State) : (resetState s).done = false := rfl
@[simp] theorem resetState_treeValid (s : State) : (resetState s).treeValid = false := rfl
@[simp] theorem resetState_wrWhileBusy (s : State) : (resetState s).wrWhileBusy = false := rfl
@[simp] theorem resetState_errCause (s : State) : (resetState s).errCause = 0 := rfl
@[simp] theorem resetState_errDetail (s : State) : (resetState s).errDetail = 0 := rfl
@[simp] theorem resetState_errIndex (s : State) : (resetState s).errIndex = 0 := rfl
@[simp] theorem resetState_shapeLen (s : State) : (resetState s).shapeLen = 0 := rfl
@[simp] theorem resetState_leafLen (s : State) : (resetState s).leafLen = 0 := rfl
@[simp] theorem resetState_msgLen (s : State) : (resetState s).msgLen = 0 := rfl
@[simp] theorem resetState_textLen (s : State) : (resetState s).textLen = 0 := rfl
@[simp] theorem resetState_nodeCount (s : State) : (resetState s).nodeCount = 0 := rfl
@[simp] theorem resetState_shape (s : State) : (resetState s).shape = [] := rfl
@[simp] theorem resetState_leaves (s : State) : (resetState s).leaves = [] := rfl
@[simp] theorem resetState_msg (s : State) : (resetState s).msg = [] := rfl
@[simp] theorem resetState_text (s : State) : (resetState s).text = [] := rfl
@[simp] theorem resetState_node (s : State) : (resetState s).node = [] := rfl
@[simp] theorem resetState_pend (s : State) : (resetState s).pend = none := rfl
@[simp] theorem resetState_agenda (s : State) : (resetState s).agenda = s.agenda := rfl
@[simp] theorem resetState_rdata (s : State) : (resetState s).rdata = s.rdata := rfl
@[simp] theorem resetState_draws (s : State) : (resetState s).draws = s.draws := rfl

end Sys2Proof.Machine
end

