-- ==== Sys2Proof/Laws/Streams.lean ====
section
/-! SUPPORT. What the input streams of commands (R133) and the windows of the port (R77, R78) read and write, cell by cell. -/

namespace Sys2Proof.Machine

@[simp] theorem bitStream_length (m : Memory Bool) (len d : Nat) : (bitStream m len d).length = len := by simp [bitStream]

@[simp] theorem symStream_length (w : Nat) (m : Memory Symbol) (len d : Nat) : (symStream w m len d).length = len := by
  simp [symStream]

theorem bitStream_get (m : Memory Bool) (len d k : Nat) (hk : k < len) :
    (bitStream m len d)[k]? = some ((m.cell k).getD (drawBit (d + k))) := by simp [bitStream, hk]

theorem symStream_get (w : Nat) (m : Memory Symbol) (len d k : Nat) (hk : k < len) :
    (symStream w m len d)[k]? = some ((m.cell k).getD (drawSym w (d + k))) := by simp [symStream, hk]

/-- A bit stream depends only on the cells below its length (R133). -/
theorem bitStream_congr (m m' : Memory Bool) (len d : Nat) (h : ∀ k, k < len → m.cell k = m'.cell k) :
    bitStream m len d = bitStream m' len d := by
  refine List.map_congr_left fun k hk => ?_
  rw [h k (List.mem_range.mp hk)]

/-- A symbol stream depends only on the cells below its length (R133). -/
theorem symStream_congr (w : Nat) (m m' : Memory Symbol) (len d : Nat) (h : ∀ k, k < len → m.cell k = m'.cell k) :
    symStream w m len d = symStream w m' len d := by
  refine List.map_congr_left fun k hk => ?_
  rw [h k (List.mem_range.mp hk)]

/-- A bit stream over cells that hold a given sequence is that sequence. -/
theorem bitStream_eq (m : Memory Bool) (d : Nat) (bs : List Bool) (h : ∀ k, k < bs.length → m.cell k = bs[k]?) :
    bitStream m bs.length d = bs := by
  refine List.ext_getElem? fun k => ?_
  by_cases hk : k < bs.length
  · rw [bitStream_get _ _ _ _ hk, h k hk]; simp [hk]
  · simp [Nat.not_lt.mp hk]

/-- A symbol stream over cells that hold a given sequence is that sequence. -/
theorem symStream_eq (w : Nat) (m : Memory Symbol) (d : Nat) (xs : List Symbol) (h : ∀ k, k < xs.length → m.cell k = xs[k]?) :
    symStream w m xs.length d = xs := by
  refine List.ext_getElem? fun k => ?_
  by_cases hk : k < xs.length
  · rw [symStream_get _ _ _ _ _ hk, h k hk]; simp [hk]
  · simp [Nat.not_lt.mp hk]

/-- A truncated symbol has SYM_W bits (R78). -/
theorem truncSym_toNat (w : Nat) (v : Word) (hw : w ≤ 16) : (truncSym w v).toNat = v.toNat % 2 ^ w := by
  have h1 : v.toNat % 2 ^ w < 2 ^ w := Nat.mod_lt _ (by positivity)
  have h2 : 2 ^ w ≤ 2 ^ 16 := Nat.pow_le_pow_right (by norm_num) hw
  simp only [truncSym, BitVec.toNat_ofNat]
  exact Nat.mod_eq_of_lt (by omega)

theorem truncSym_lt (w : Nat) (v : Word) (hw : w ≤ 16) : (truncSym w v).toNat < 2 ^ w := by
  rw [truncSym_toNat w v hw]
  exact Nat.mod_lt _ (by positivity)

/-- Every symbol a command reads has SYM_W bits, whether its cell was written or is `⊥` (R55, R80). -/
theorem symStream_lt (w : Nat) (m : Memory Symbol) (len d : Nat) (hw : w ≤ 16) (hm : SymsFit w m) :
    ∀ x ∈ symStream w m len d, x.toNat < 2 ^ w := by
  intro x hx
  obtain ⟨k, -, rfl⟩ := List.mem_map.mp hx
  cases hc : m.cell k with
  | none => exact truncSym_lt w _ hw
  | some y => exact hm k y hc

theorem packBits_get (f : Nat → Bool) (n j : Nat) (hj : j < n) : (packBits f n).getLsbD j = f j := by
  induction n with
  | zero => omega
  | succ n ih =>
    simp only [packBits, BitVec.getLsbD_cons]
    split
    · subst_vars; rfl
    · exact ih (by omega)

/-- A packed word read, bit by bit (R77). -/
theorem readBitWord_get (cap : Nat) (m : Memory Bool) (free : Word) (w j : Nat) (hj : j < 32) :
    (readBitWord cap m free w).getLsbD j =
      if 32 * w + j < cap then (m.cell (32 * w + j)).getD (free.getLsbD j) else false := by
  simp only [readBitWord, packBits_get _ _ _ hj]

theorem bitsBelow_length (cap w : Nat) (v : Word) : (bitsBelow cap w v).length = min (cap - 32 * w) 32 := by simp [bitsBelow]

theorem bitsBelow_get (cap w j : Nat) (v : Word) (hj : j < 32) (hc : 32 * w + j < cap) :
    (bitsBelow cap w v)[j]? = some (v.getLsbD j) := by
  simp only [bitsBelow]
  rw [List.getElem?_take_of_lt (by omega)]
  simp [hj]

/-- A packed word write, cell by cell (R77). -/
theorem cell_writeBitWord (cap : Nat) (m : Memory Bool) (w k : Nat) (v : Word) (h : m.wf) :
    (writeBitWord cap m w v).cell k =
      if 32 * w ≤ k ∧ k < 32 * w + 32 ∧ k < cap then some (v.getLsbD (k - 32 * w)) else m.cell k := by
  simp only [writeBitWord, cell_putList _ _ _ _ h, bitsBelow_length]
  by_cases hk : 32 * w ≤ k ∧ k < 32 * w + 32 ∧ k < cap
  · rw [if_pos hk, if_pos (by omega), bitsBelow_get _ _ _ _ (by omega) (by omega)]
  · rw [if_neg hk, if_neg (by omega)]

/-- A packed word write keeps a bit buffer within its capacity. -/
theorem fits_writeBitWord (cap : Nat) (m : Memory Bool) (w : Nat) (v : Word) (h : m.Fits cap) : (writeBitWord cap m w v).Fits cap := by
  refine ⟨putList_wf _ _ _ h.1, fun k hk => ?_⟩
  rw [cell_writeBitWord _ _ _ _ _ h.1, if_neg (by omega)]
  exact h.2 k hk

/-- A symbol write keeps a symbol buffer within its capacity. -/
theorem fits_writeSymWord (sw cap : Nat) (m : Memory Symbol) (w : Nat) (v : Word) (h : m.Fits cap) :
    (writeSymWord sw cap m w v).Fits cap := by
  unfold writeSymWord
  split
  · exact fits_put cap w m _ h (by assumption)
  · exact h

/-- A symbol write stores SYM_W bits. -/
theorem symsFit_writeSymWord (sw cap : Nat) (m : Memory Symbol) (w : Nat) (v : Word) (hw : m.wf) (hs : sw ≤ 16) (h : SymsFit sw m) :
    SymsFit sw (writeSymWord sw cap m w v) := by
  unfold writeSymWord
  split
  · intro k x hx
    rw [cell_put _ _ _ _ hw] at hx
    split at hx
    · cases hx; exact truncSym_lt sw v hs
    · exact h k x hx
  · exact h

/-- An output of SYM_W-bit symbols keeps a buffer's symbols SYM_W bits wide. -/
theorem symsFit_putList (sw : Nat) (m : Memory Symbol) (xs : List Symbol) (hw : m.wf) (h : SymsFit sw m)
    (hx : ∀ x ∈ xs, x.toNat < 2 ^ sw) : SymsFit sw (m.putList 0 xs) := by
  intro k x hk
  rw [cell_putList _ _ _ _ hw] at hk
  split at hk
  · exact hx x (List.mem_of_getElem? hk)
  · exact h k x hk

theorem symsFit_nil (sw : Nat) : SymsFit sw ([] : Memory Symbol) := fun _ _ h => by simp at h

end Sys2Proof.Machine
end

