-- ==== Sys2Proof/Laws/Unflatten.lean ====
section
/-! SUPPORT. What UNFLATTEN's data phase can do (R140): it builds exactly the tree whose flattened form begins its streams, or reports the
first error in processing order. -/

namespace Sys2Proof.Machine

/-- The variables of the data phase after the tree `t` has been built from `b`, with the streams that remain. -/
structure BuiltFrom (b : Build) (t : CodeTree) (b' : Build) : Prop where
  shape : b.shape = t.shape ++ b'.shape
  leaves : b.leaves = t.leaves ++ b'.leaves
  s : b'.s = b.s + t.size
  l : b'.l = b.l + t.leafCount
  n : b'.n = b.n + t.size
  wf : b'.node.wf
  image : ∀ k, b'.node.cell k = if b.n ≤ k ∧ k < b.n + t.size then (t.layout b.n)[k - b.n]? else b.node.cell k

/-- One leaf built. -/
theorem builtFrom_leaf (b : Build) (x : Symbol) (rest : List Bool) (ls : List Symbol) (hs : b.shape = false :: rest)
    (hl : b.leaves = x :: ls) (hw : b.node.wf) :
    BuiltFrom b (.leaf x)
      { shape := rest, leaves := ls, s := b.s + 1, l := b.l + 1, n := b.n + 1, node := b.node.put b.n (.leaf x) } where
  shape := by simpa [CodeTree.shape] using hs
  leaves := by simpa [CodeTree.leaves] using hl
  s := rfl
  l := rfl
  n := rfl
  wf := put_wf _ _ _ hw
  image k := by
    rw [cell_put _ _ _ _ hw]
    have hz : (CodeTree.leaf x).size = 1 := rfl
    by_cases hk : k = b.n
    · subst hk; rw [if_pos rfl, if_pos (by omega)]; simp [CodeTree.layout]
    · rw [if_neg hk, if_neg (by omega)]

/-- One internal node built from its two subtrees. -/
theorem builtFrom_node (b bz bo : Build) (z o : CodeTree) (rest : List Bool) (hs : b.shape = true :: rest)
    (hz : BuiltFrom { b with shape := rest, s := b.s + 1, n := b.n + 1 } z bz) (ho : BuiltFrom bz o bo) :
    BuiltFrom b (.node z o)
      { bo with node := bo.node.put b.n (.internal (BitVec.ofNat 15 (b.n + 1)) (BitVec.ofNat 15 bz.n)) } where
  shape := by rw [hs, show rest = _ from hz.shape, ho.shape]; simp [CodeTree.shape]
  leaves := by rw [show b.leaves = _ from hz.leaves, ho.leaves]; simp [CodeTree.leaves]
  s := by rw [ho.s, hz.s]; simp only [CodeTree.size]; omega
  l := by rw [ho.l, hz.l]; simp only [CodeTree.leafCount]; omega
  n := by rw [ho.n, hz.n]; simp only [CodeTree.size]; omega
  wf := put_wf _ _ _ ho.wf
  image k := by
    have hzn : bz.n = b.n + 1 + z.size := hz.n
    rw [cell_put _ _ _ _ ho.wf, ho.image k, hz.image k]
    have hsz : (CodeTree.node z o).size = 1 + z.size + o.size := rfl
    rw [hzn]
    by_cases hk : k = b.n
    · subst hk; rw [if_pos rfl, if_pos (by omega)]; simp [CodeTree.layout]
    · rw [if_neg hk]
      simp only [CodeTree.layout]
      by_cases h1 : b.n + 1 + z.size ≤ k ∧ k < b.n + 1 + z.size + o.size
      · rw [if_pos h1, if_pos (by omega), show k - b.n = (k - b.n - 1) + 1 by omega, List.getElem?_cons_succ,
          List.getElem?_append_right (by simp; omega)]
        congr 1; simp; omega
      · rw [if_neg h1]
        by_cases h2 : b.n + 1 ≤ k ∧ k < b.n + 1 + z.size
        · rw [if_pos h2, if_pos (by omega), show k - b.n = (k - b.n - 1) + 1 by omega, List.getElem?_cons_succ,
            List.getElem?_append_left (by simp; omega)]
          congr 1
        · rw [if_neg h2, if_neg (by omega)]

/-- Completeness: a tree whose flattened form begins the streams, and whose nodes fit, is built. -/
theorem buildNode_complete (cap : Nat) (t : CodeTree) (fuel : Nat) (b : Build) (r : List Bool) (ls : List Symbol)
    (hs : b.shape = t.shape ++ r) (hl : b.leaves = t.leaves ++ ls) (hn : b.n + t.size ≤ cap) (hf : t.depth < fuel)
    (hw : b.node.wf) :
    ∃ b', buildNode cap fuel b = .ok (b.n, b') ∧ BuiltFrom b t b' ∧ b'.shape = r ∧ b'.leaves = ls := by
  induction t generalizing fuel b r ls with
  | leaf x =>
    obtain ⟨f, rfl⟩ : ∃ f, fuel = f + 1 := ⟨fuel - 1, by omega⟩
    simp only [CodeTree.size] at hn
    simp only [CodeTree.shape, List.cons_append, List.nil_append] at hs
    simp only [CodeTree.leaves, List.cons_append, List.nil_append] at hl
    refine ⟨_, ?_, builtFrom_leaf b x r ls hs hl hw, rfl, rfl⟩
    simp only [buildNode, hs, hl]
    rw [if_neg (by omega)]
    simp
  | node z o hz ho =>
    obtain ⟨f, rfl⟩ : ∃ f, fuel = f + 1 := ⟨fuel - 1, by omega⟩
    simp only [CodeTree.size, CodeTree.depth] at hn hf
    simp only [CodeTree.shape, List.cons_append, List.append_assoc] at hs
    simp only [CodeTree.leaves, List.append_assoc] at hl
    obtain ⟨bz, hbz, hzb, hzs, hzl⟩ :=
      hz f { b with shape := z.shape ++ (o.shape ++ r), s := b.s + 1, n := b.n + 1 } (o.shape ++ r) (o.leaves ++ ls)
        rfl hl (by show b.n + 1 + z.size ≤ cap; omega) (by omega) hw
    have hzn : bz.n = b.n + 1 + z.size := hzb.n
    obtain ⟨bo, hbo, hob, hos, hol⟩ := ho f bz r ls hzs hzl (by omega) (by omega) hzb.wf
    refine ⟨_, ?_, builtFrom_node b bz bo z o _ hs hzb hob, hos, hol⟩
    simp only [buildNode, hs, hbz, hbo]
    rw [if_neg (by omega), if_neg (by simp)]

/-- Soundness: what is built is a tree whose flattened form begins the streams, and its nodes fit. -/
theorem buildNode_sound (cap fuel : Nat) (b b' : Build) (i : Nat) (h : buildNode cap fuel b = .ok (i, b'))
    (hn : b.n ≤ cap) (hw : b.node.wf) :
    ∃ t, i = b.n ∧ b.n + t.size ≤ cap ∧ t.depth < fuel ∧ BuiltFrom b t b' := by
  induction fuel generalizing b b' i with
  | zero => simp [buildNode] at h
  | succ f ih =>
    simp only [buildNode] at h
    split at h
    · cases h
    next bit rest hs =>
      split at h
      · cases h
      next hcap =>
        split at h
        next hbit =>
          split at h
          · cases h
          next x ls hl =>
            simp only [Except.ok.injEq, Prod.mk.injEq] at h
            obtain ⟨rfl, rfl⟩ := h
            subst hbit
            exact ⟨.leaf x, rfl, by simp only [CodeTree.size]; omega, by simp [CodeTree.depth],
              builtFrom_leaf b x rest ls hs hl hw⟩
        next hbit =>
          have hbit : bit = true := by simpa using hbit
          subst hbit
          split at h
          · cases h
          next z bz hbz =>
            split at h
            · cases h
            next o bo hbo =>
              simp only [Except.ok.injEq, Prod.mk.injEq] at h
              obtain ⟨rfl, rfl⟩ := h
              obtain ⟨tz, rfl, hzc, hzd, hzb⟩ := ih _ _ _ hbz (show b.n + 1 ≤ cap by omega) hw
              have hzn : bz.n = b.n + 1 + tz.size := hzb.n
              have hzc : b.n + 1 + tz.size ≤ cap := hzc
              obtain ⟨to', rfl, hoc, hod, hob⟩ := ih _ _ _ hbo (by omega) hzb.wf
              exact ⟨.node tz to', rfl, by simp only [CodeTree.size]; omega, by simp only [CodeTree.depth]; omega,
                builtFrom_node b bz bo tz to' rest hs hzb hob⟩

/-- How the data phase ends in an error (R140): the part `pre` of the shape stream it has taken is no whole tree, and the reason is that the
stream ends there, that node memory is full there, or that the leaf bit there finds no symbol. -/
inductive BuildError (cap : Nat) (b : Build) (pre post : List Bool) : Report → Prop where
  | shapeExhausted (h : post = []) : BuildError cap b pre post ⟨.malformedTree, 1, b.s + pre.length⟩
  | capacity (h : post ≠ []) (hc : b.n + pre.length = cap) : BuildError cap b pre post ⟨.capacity, 1, b.s + pre.length⟩
  | leavesExhausted (post' : List Bool) (h : post = false :: post') (hc : b.n + pre.length < cap)
      (hl : zeroBits pre = b.leaves.length) : BuildError cap b pre post ⟨.malformedTree, 2, b.s + pre.length⟩

/-- The error of the data phase: where it stands and why. -/
theorem buildNode_error (cap fuel : Nat) (b : Build) (r : Report) (h : buildNode cap fuel b = .error r)
    (hf : b.shape.length ≤ fuel) (hn : b.n ≤ cap) (hw : b.node.wf) :
    ∃ pre post, b.shape = pre ++ post ∧ IncompleteShape pre ∧ zeroBits pre ≤ b.leaves.length ∧
      b.n + pre.length ≤ cap ∧ BuildError cap b pre post r := by
  have incNil : IncompleteShape [] := ⟨.leaf 0, [false], by simp, rfl⟩
  induction fuel generalizing b r with
  | zero =>
    simp only [buildNode, Except.error.injEq] at h
    subst h
    have hs : b.shape = [] := by simpa using hf
    exact ⟨[], [], by simpa using hs, incNil, by simp [zeroBits], by simpa using hn, .shapeExhausted rfl⟩
  | succ f ih =>
    simp only [buildNode] at h
    split at h
    next hs =>
      cases h
      exact ⟨[], [], by simpa using hs, incNil, by simp [zeroBits], by simpa using hn, .shapeExhausted rfl⟩
    next bit rest hs =>
      split at h
      next hcap =>
        cases h
        exact ⟨[], bit :: rest, by simpa using hs, incNil, by simp [zeroBits], by simpa using hn,
          .capacity (by simp) (by simpa using hcap)⟩
      next hcap =>
        split at h
        next hbit =>
          split at h
          next hl =>
            cases h
            subst hbit
            exact ⟨[], false :: rest, by simpa using hs, incNil, by simp [zeroBits], by simpa using hn,
              .leavesExhausted rest rfl (by simp; omega) (by simp [zeroBits, hl])⟩
          · cases h
        next hbit =>
          have hbit : bit = true := by simpa using hbit
          subst hbit
          have hlen : rest.length ≤ f := by rw [hs] at hf; simpa using hf
          split at h
          next r' hbz =>
            cases h
            obtain ⟨pre, post, h1, ⟨t, q, hq, ht⟩, h3, h4, h5⟩ := ih _ _ hbz hlen (show b.n + 1 ≤ cap by omega) hw
            have h1 : rest = pre ++ post := h1
            have h3 : zeroBits pre ≤ b.leaves.length := h3
            have h4 : b.n + 1 + pre.length ≤ cap := h4
            refine ⟨true :: pre, post, by simp [hs, h1], ⟨.node t (.leaf 0), q ++ [false], by simp, ?_⟩, ?_, ?_, ?_⟩
            · simp [CodeTree.shape, ht]
            · simpa [zeroBits] using h3
            · simp; omega
            · generalize hr : r = r0 at h5
              have e1 : b.s + 1 + pre.length = b.s + (true :: pre).length := by simp; omega
              cases h5 with
              | shapeExhausted hp =>
                subst hr; rw [show ({ b with shape := rest, s := b.s + 1, n := b.n + 1 } : Build).s = b.s + 1 from rfl, e1]
                exact .shapeExhausted hp
              | capacity hp hc =>
                subst hr; rw [show ({ b with shape := rest, s := b.s + 1, n := b.n + 1 } : Build).s = b.s + 1 from rfl, e1]
                have hc : b.n + 1 + pre.length = cap := hc
                exact .capacity hp (by simp; omega)
              | leavesExhausted post' hp hc hl =>
                subst hr; rw [show ({ b with shape := rest, s := b.s + 1, n := b.n + 1 } : Build).s = b.s + 1 from rfl, e1]
                have hc : b.n + 1 + pre.length < cap := hc
                exact .leavesExhausted post' hp (by simp; omega) (by simpa [zeroBits] using hl)
          next z bz hbz =>
            obtain ⟨tz, -, hzc, hzd, hzb⟩ := buildNode_sound _ _ _ _ _ hbz (show b.n + 1 ≤ cap by omega) hw
            have hzc : b.n + 1 + tz.size ≤ cap := hzc
            have hzs : rest = tz.shape ++ bz.shape := hzb.shape
            have hzl : b.leaves = tz.leaves ++ bz.leaves := hzb.leaves
            have hzn : bz.n = b.n + 1 + tz.size := hzb.n
            have hzss : bz.s = b.s + 1 + tz.size := hzb.s
            split at h
            next r' hbo =>
              cases h
              obtain ⟨pre, post, h1, ⟨t, q, hq, ht⟩, h3, h4, h5⟩ :=
                ih _ _ hbo (by rw [hzs] at hlen; simp at hlen; omega) (by omega) hzb.wf
              have e1 : bz.s + pre.length = b.s + (true :: (tz.shape ++ pre)).length := by simp; omega
              have ez : zeroBits (true :: (tz.shape ++ pre)) = tz.leafCount + zeroBits pre := by
                have := tz.shape_zeros
                simp_all [zeroBits]
              refine ⟨true :: (tz.shape ++ pre), post, by simp [hs, hzs, h1],
                ⟨.node tz t, q, hq, by simp [CodeTree.shape, ht]⟩, ?_, ?_, ?_⟩
              · rw [ez, hzl]; simp; omega
              · simp; omega
              · generalize hr : r = r0 at h5
                cases h5 with
                | shapeExhausted hp => subst hr; rw [e1]; exact .shapeExhausted hp
                | capacity hp hc => subst hr; rw [e1]; exact .capacity hp (by simp; omega)
                | leavesExhausted post' hp hc hl =>
                  subst hr; rw [e1]
                  exact .leavesExhausted post' hp (by simp; omega) (by rw [ez, hzl, hl]; simp)
            · cases h

/-- The variables with which UNFLATTEN's data phase begins. -/
def startBuild (node : Memory Node) (shape : List Bool) (leaves : List Symbol) : Build :=
  { shape := shape, leaves := leaves, s := 0, l := 0, n := 0, node := node }

/-- A tree built over node memory is written there from index 0 on, in its layout. -/
theorem BuiltFrom.node_eq {m : Memory Node} {sh : List Bool} {lv : List Symbol} {t : CodeTree} {b' : Build} (hw : m.wf)
    (h : BuiltFrom (startBuild m sh lv) t b') : b'.node = m.putList 0 (t.layout 0) := by
  refine ext_of_wf _ _ h.wf (putList_wf _ _ _ hw) fun k => ?_
  rw [h.image k, cell_putList _ _ _ _ hw]
  simp [startBuild]

/-- UNFLATTEN's data phase on streams that begin with a tree's flattened form: the tree is written, or what is left over is reported
(R140, SHAPE_LEFTOVER before LEAVES_LEFTOVER). -/
theorem unflattenStreams_tree (cap : Nat) (m : Memory Node) (t : CodeTree) (r : List Bool) (ls : List Symbol) (hw : m.wf)
    (hc : t.size ≤ cap) :
    unflattenStreams cap m (t.shape ++ r) (t.leaves ++ ls) =
      if r ≠ [] then .error ⟨.malformedTree, 3, t.size⟩
      else if ls ≠ [] then .error ⟨.malformedTree, 4, t.leafCount⟩
      else .ok (t.size, m.putList 0 (t.layout 0)) := by
  have hd := t.depth_bound
  obtain ⟨b', hb, hbf, rfl, rfl⟩ := buildNode_complete cap t (t.shape ++ r).length (startBuild m (t.shape ++ r) (t.leaves ++ ls))
    r ls rfl rfl (by simpa [startBuild] using hc) (by simp; omega) hw
  have hs : b'.s = t.size := by simpa [startBuild] using hbf.s
  have hl : b'.l = t.leafCount := by simpa [startBuild] using hbf.l
  have hn : b'.n = t.size := by simpa [startBuild] using hbf.n
  simp only [startBuild] at hb
  simp only [unflattenStreams, hb, hs, hl, hn, hbf.node_eq hw]

/-- UNFLATTEN's data phase on streams that end, overflow or lack a leaf inside a tree: the first such point is reported (R140, R205). -/
theorem unflattenStreams_stop (cap : Nat) (m : Memory Node) (pre post : List Bool) (lv : List Symbol) (r : Report)
    (hw : m.wf) (hi : IncompleteShape pre) (hz : zeroBits pre ≤ lv.length) (hc : pre.length ≤ cap)
    (he : BuildError cap (startBuild m (pre ++ post) lv) pre post r) :
    unflattenStreams cap m (pre ++ post) lv = .error r := by
  obtain ⟨t, q, hq, ht⟩ := hi
  cases hb : buildNode cap (pre ++ post).length (startBuild m (pre ++ post) lv) with
  | ok p =>
    exfalso
    obtain ⟨i, b'⟩ := p
    obtain ⟨t', -, hcap, -, hbf⟩ := buildNode_sound _ _ _ _ _ hb (by simp [startBuild]) hw
    have hs : pre ++ post = t'.shape ++ b'.shape := hbf.shape
    have hl : lv = t'.leaves ++ b'.leaves := hbf.leaves
    have hcap : t'.size ≤ cap := by simpa [startBuild] using hcap
    rcases List.append_eq_append_iff.mp hs with ⟨c, hc1, hc2⟩ | ⟨c, hc1, hc2⟩
    · have hzero : zeroBits t'.shape ≤ lv.length := by rw [t'.shape_zeros, hl]; simp
      have hlen : t'.size = pre.length + c.length := by rw [← t'.shape_length, hc1]; simp
      have hcne : c ≠ [] := by
        rintro rfl
        have := CodeTree.shape_inj t t' [] q (by rw [List.append_nil, ht, hc1]; simp)
        exact hq this.2.symm
      have hcpos : 0 < c.length := List.length_pos_iff.mpr hcne
      cases he with
      | shapeExhausted h => simp_all
      | capacity h h' => simp only [startBuild] at h'; omega
      | leavesExhausted post' h h' h'' =>
        cases c with
        | nil => simp at hcne
        | cons c0 c =>
          rw [h] at hc2
          simp only [List.cons_append, List.cons.injEq] at hc2
          rw [hc1, ← hc2.1] at hzero
          simp only [startBuild] at h''
          simp [zeroBits] at hzero h''
          omega
    · have := CodeTree.shape_inj t t' [] (c ++ q) (by rw [List.append_nil, ht, hc1]; simp)
      exact hq (List.append_eq_nil_iff.mp this.2.symm).2
  | error r' =>
    obtain ⟨pre', post', h1, ⟨t', q', hq', ht'⟩, h3, h4, h5⟩ :=
      buildNode_error _ _ _ _ hb (by simp [startBuild]) (by simp [startBuild]) hw
    have h1 : pre ++ post = pre' ++ post' := h1
    have h3 : zeroBits pre' ≤ lv.length := h3
    have h4 : pre'.length ≤ cap := by simpa [startBuild] using h4
    -- whichever of the two stops comes first rules the other out
    have key : ∀ (a b c d : List Bool) (ra rb : Report), a ++ b = c ++ d → zeroBits c ≤ lv.length → c.length ≤ cap →
        BuildError cap (startBuild m (pre ++ post) lv) a b ra → BuildError cap (startBuild m (pre ++ post) lv) c d rb →
        ∀ e, c = a ++ e → e = [] := by
      intro a b c d ra rb hab hcz hcc hea _ e hce
      by_contra hne
      have hpos : 0 < e.length := List.length_pos_iff.mpr hne
      have hb : b = e ++ d := by rw [hce, List.append_assoc] at hab; exact List.append_cancel_left hab
      have hlen : c.length = a.length + e.length := by simp [hce]
      cases hea with
      | shapeExhausted h => rw [h] at hb; exact hne (List.append_eq_nil_iff.mp hb.symm).1
      | capacity h h' => simp only [startBuild] at h'; omega
      | leavesExhausted p h h' h'' =>
        cases e with
        | nil => simp at hne
        | cons e0 e =>
          rw [h] at hb
          simp only [List.cons_append, List.cons.injEq] at hb
          rw [hce, ← hb.1] at hcz
          simp only [startBuild] at h''
          simp [zeroBits] at hcz h''
          omega
    have hpre : pre = pre' := by
      rcases List.append_eq_append_iff.mp h1 with ⟨c, hc1, -⟩ | ⟨c, hc1, -⟩
      · rw [hc1, key pre post pre' post' r r' h1 h3 h4 he h5 c hc1, List.append_nil]
      · rw [hc1, key pre' post' pre post r' r h1.symm hz hc h5 he c hc1, List.append_nil]
    subst hpre
    have hpost : post = post' := List.append_cancel_left h1
    subst hpost
    have hr : r' = r := by
      cases he with
      | shapeExhausted h =>
        cases h5 with
        | shapeExhausted _ => rfl
        | capacity h' _ => exact absurd h h'
        | leavesExhausted p h' _ _ => rw [h] at h'; cases h'
      | capacity h hc' =>
        cases h5 with
        | shapeExhausted h' => exact absurd h' h
        | capacity _ _ => rfl
        | leavesExhausted p h' hc'' _ => omega
      | leavesExhausted p h hc' _ =>
        cases h5 with
        | shapeExhausted h' => rw [h] at h'; cases h'
        | capacity _ hc'' => omega
        | leavesExhausted _ _ _ _ => rfl
    simp only [startBuild] at hb
    simp only [unflattenStreams, hb, hr]

/-- Every end of UNFLATTEN's data phase: a whole tree with what is left over, or a stop inside a tree. -/
theorem unflattenStreams_cases (cap : Nat) (m : Memory Node) (sh : List Bool) (lv : List Symbol) (hw : m.wf) :
    (∃ (t : CodeTree) (r : List Bool) (ls : List Symbol), sh = t.shape ++ r ∧ lv = t.leaves ++ ls ∧ t.size ≤ cap) ∨
    (∃ pre post r, sh = pre ++ post ∧ IncompleteShape pre ∧ zeroBits pre ≤ lv.length ∧ pre.length ≤ cap ∧
      BuildError cap (startBuild m sh lv) pre post r ∧ unflattenStreams cap m sh lv = .error r) := by
  cases hb : buildNode cap sh.length (startBuild m sh lv) with
  | ok p =>
    obtain ⟨i, b'⟩ := p
    obtain ⟨t, -, hcap, -, hbf⟩ := buildNode_sound _ _ _ _ _ hb (by simp [startBuild]) hw
    exact .inl ⟨t, _, _, hbf.shape, hbf.leaves, by simpa [startBuild] using hcap⟩
  | error r =>
    obtain ⟨pre, post, h1, h2, h3, h4, h5⟩ :=
      buildNode_error _ _ _ _ hb (by simp [startBuild]) (by simp [startBuild]) hw
    refine .inr ⟨pre, post, r, h1, h2, h3, by simpa [startBuild] using h4, h5, ?_⟩
    simp only [startBuild] at hb
    simp only [unflattenStreams, hb]

end Sys2Proof.Machine
end

