-- ==== Sys2Proof/Laws/Exec.lean ====
section
/-! SUPPORT. How a command ends in each of its branches, and which reports its data phase can raise (R204). -/

open Sys2Proof

namespace Sys2Proof.Machine

/-- The reports of `buildNode`. -/
theorem buildNode_causes (cap fuel b r) (h : buildNode cap fuel b = .error r) :
    (r.cause = .malformedTree ∧ (r.detail = 1 ∨ r.detail = 2)) ∨ (r.cause = .capacity ∧ r.detail = 1) := by
  induction fuel generalizing b r with
  | zero => simp [buildNode] at h; subst h; simp
  | succ f ih =>
    simp only [buildNode] at h
    repeat' split at h
    all_goals cases h
    all_goals first | (simp; done) | exact ih _ _ ‹_›

/-- The reports of UNFLATTEN's data phase. -/
theorem unfl_causes (cap m sh lv r) (h : unflattenStreams cap m sh lv = .error r) :
    (r.cause = .malformedTree ∧ (r.detail = 1 ∨ r.detail = 2 ∨ r.detail = 3 ∨ r.detail = 4)) ∨ (r.cause = .capacity ∧ r.detail = 1) := by
  simp only [unflattenStreams] at h
  repeat' split at h
  all_goals cases h
  · have := buildNode_causes _ _ _ _ ‹_›; tauto
  all_goals simp

/-- The reports of ENCODE's data phase. -/
theorem enc_causes (table cap i xs out r) (h : encodeText table cap i xs out = .error r) :
    (r.cause = .unknownSymbol ∧ r.detail = 0) ∨ (r.cause = .capacity ∧ r.detail = 3) := by
  induction xs generalizing i out with
  | nil => simp [encodeText] at h
  | cons x xs ih =>
    simp only [encodeText] at h
    repeat' split at h
    all_goals first | (cases h; simp) | exact ih _ _ h

/-- The reports of DECODE's data phase. -/
theorem dec_causes (m cap j bs cur start out r) (h : decodeBits m cap j bs cur start out = .error (.raise r)) :
    (r.cause = .malformedBitstream ∧ r.detail = 0) ∨ (r.cause = .capacity ∧ r.detail = 4) := by
  induction bs generalizing j cur start out with
  | nil => simp only [decodeBits] at h; split at h <;> cases h; simp
  | cons x xs ih =>
    simp only [decodeBits] at h
    repeat' split at h
    all_goals first | (cases h; simp) | (cases h) | exact ih _ _ _ _ h

/-- The shape stream has SHAPE_LEN bits. -/
theorem shapeIn_len (s : State) : s.shapeIn.length = s.shapeLen.toNat := by simp [State.shapeIn]

/-- The leaf stream has LEAF_LEN symbols. -/
theorem leavesIn_len (s : State) : s.leavesIn.length = s.leafLen.toNat := by simp [State.leavesIn]

/-- UNFLATTEN past its checks, when its data phase raises an error. -/
theorem unfl_err (s : State) (r : Report) (hv : s.treeValid = false) (h1 : s.shapeLen.toNat ≤ s.params.shapeCap)
    (h2 : s.leafLen.toNat ≤ s.params.leafCap) (h : unflattenStreams s.params.nodeCap s.node s.shapeIn s.leavesIn = .error r) :
    exec .unflatten s = .next (raiseError r { s with node := [], draws := drawnByUnflatten s }) := by
  simp only [exec, execUnflatten, hv, Bool.false_eq_true, if_false, h]
  rw [if_neg (by omega), if_neg (by omega)]
  rfl

/-- The root of a tree that is not degenerate is an internal entry. -/
theorem root_cell (s : State) (t : CodeTree) (ht : s.HoldsTree t) (hd : t.degenerate = false) : ∃ z o, s.node.cell 0 = some (.internal z o) := by
  cases t with
  | leaf x => simp [CodeTree.degenerate] at hd
  | node l r => exact ⟨_, _, by rw [ht.image 0]; rfl⟩

/-- ENCODE past its checks. -/
theorem enc_eq (s : State) (t : CodeTree) (hl : s.params.Legal) (ht : s.HoldsTree t) (hd : t.degenerate = false) (h1 : s.textLen.toNat ≤ s.params.textCap) :
    exec .encode s = .next (encodeWith t.paths s) := by
  obtain ⟨z, o, h⟩ := root_cell s t ht hd
  simp [exec, execEncode, ht.valid, Nat.not_lt.mpr h1, h, ht.codeTable hl]

/-- DECODE past its checks, when its data phase succeeds. -/
theorem dec_ok (s : State) (t : CodeTree) (ht : s.HoldsTree t) (hd : t.degenerate = false) (h1 : s.msgLen.toNat ≤ s.params.msgCap)
    (out : List Symbol) (h : decodeBits s.node s.params.textCap 0 s.msgIn 0 0 [] = .ok out) :
    exec .decode s = .next (complete { s with text := s.text.putList 0 out, textLen := BitVec.ofNat 32 out.length, draws := drawnByDecode s }) := by
  obtain ⟨z, o, h'⟩ := root_cell s t ht hd
  simp only [exec, execDecode, ht.valid, h', h, gt_iff_lt]
  rw [if_neg (by simp), if_neg (by omega)]

/-- DECODE past its checks, when its data phase raises an error. -/
theorem dec_err (s : State) (t : CodeTree) (ht : s.HoldsTree t) (hd : t.degenerate = false) (h1 : s.msgLen.toNat ≤ s.params.msgCap)
    (r : Report) (h : decodeBits s.node s.params.textCap 0 s.msgIn 0 0 [] = .error (.raise r)) :
    exec .decode s = .next (raiseError r { s with text := [], textLen := 0, draws := drawnByDecode s }) := by
  obtain ⟨z, o, h'⟩ := root_cell s t ht hd
  simp only [exec, execDecode, ht.valid, h', h, gt_iff_lt]
  rw [if_neg (by simp), if_neg (by omega)]; rfl

/-- A loaded tree fits the 15-bit indices. -/
theorem size15 {s : State} {t : CodeTree} (hl : s.params.Legal) (ht : s.HoldsTree t) : t.size ≤ 2^15 := by
  have := ht.fits; have := hl.2.1.2; omega

/-- The codes of a text are paths of leaves that hold its symbols. -/
theorem codes_leaves (t : CodeTree) (xs : List Symbol) (codes : List (List Bool)) (h : CodesOf t xs codes) :
    LeavesOf t (xs.zip codes) ∧ (xs.zip codes).map Prod.fst = xs ∧ (xs.zip codes).map Prod.snd = codes := by
  unfold CodesOf at h
  induction xs generalizing codes with
  | nil => have : codes = [] := by simpa using h.symm
           subst this; simp [LeavesOf]
  | cons x xs ih =>
    cases codes with
    | nil => simp at h
    | cons p codes =>
      simp only [List.map_cons, List.cons.injEq] at h
      obtain ⟨h1, h2, h3⟩ := ih codes h.2
      refine ⟨?_, by simp [h2], by simp [h3]⟩
      intro e he
      simp only [List.zip_cons_cons, List.mem_cons] at he
      rcases he with rfl | he
      · exact codeOf_mem _ _ _ h.1
      · exact h1 e he

/-- A leaf with its path is a leaf. -/
theorem leaves_syms (t : CodeTree) (x : Symbol) (p : List Bool) (h : (x, p) ∈ t.paths) : x ∈ t.leaves := by
  rw [← t.paths_syms]; exact List.mem_map_of_mem h

end Sys2Proof.Machine
end

