-- ==== Sys2Proof/Laws/Port.lean ====
section
/-! SUPPORT. The host port: where addresses land, and everything one write can do (R72, R73, R241). -/

open Sys2Proof

namespace Sys2Proof.Machine

/-- Where CTRL stands. -/
theorem addr_ctrl : regionOf 0x20#20 = .regs ∧ regAt (offsetOf 0x20#20) = some .ctrl ∧ writableWhileBusy 0x20#20 = true := by decide

/-- Where STATUS stands. -/
theorem addr_status : regionOf 0x24#20 = .regs ∧ regAt (offsetOf 0x24#20) = some .status ∧ writableWhileBusy 0x24#20 = true := by decide

/-- Only CTRL and STATUS take effect in the busy window, by offset. -/
theorem regAt_off (o : Nat) (r : Reg) (h : regAt o = some r) (hw : r.writableWhileBusy = true) : o = 0x20 ∨ o = 0x24 := by
  unfold regAt at h
  split at h <;> simp_all <;> subst h <;> simp [Reg.writableWhileBusy] at hw

/-- The offsets outside R34's table are reserved. -/
theorem regAt_none (o : Nat)
    (h : o ∉ ([0x000, 0x004, 0x008, 0x00C, 0x010, 0x014, 0x018, 0x020, 0x024, 0x028, 0x02C, 0x030, 0x034, 0x040, 0x044, 0x048, 0x04C,
      0x050] : List Nat)) : regAt o = none := by
  unfold regAt
  split <;> first | rfl | simp at h

/-- In the register block the address is the offset. -/
theorem regs_addr (a : Addr) (h : regionOf a = .regs) : a.toNat = offsetOf a := by
  have := a.isLt
  simp only [regionOf, BitVec.extractLsb'_toNat] at h
  simp only [offsetOf, BitVec.extractLsb'_toNat]
  have h0 : a.toNat >>> 16 % 2 ^ 4 = 0 := by
    split at h <;> simp_all
  simp only [Nat.shiftRight_eq_div_pow] at h0
  simp
  omega

/-- Only CTRL and STATUS take effect in the busy window, by address. -/
theorem wwb (a : Addr) (h : writableWhileBusy a = true) : a = 0x20 ∨ a = 0x24 := by
  unfold writableWhileBusy at h
  split at h
  next r hr ho =>
    have := regs_addr a hr
    simp only [← BitVec.toNat_inj]
    simp
    rw [this]
    exact regAt_off _ _ ho h
  · simp at h

/-- The addresses past the last window. -/
theorem region_high (a : Addr) (h : 0x60000 ≤ a.toNat) : regionOf a = .unmapped := by
  have := a.isLt
  simp only [regionOf, BitVec.extractLsb'_toNat, Nat.shiftRight_eq_div_pow]
  split <;> first | rfl | (exfalso; rename_i h'; simp at h'; omega)

/-- The addresses of the register block. -/
theorem region_low (a : Addr) (h : a.toNat < 0x10000) : regionOf a = .regs ∧ offsetOf a = a.toNat := by
  simp only [regionOf, offsetOf, BitVec.extractLsb'_toNat, Nat.shiftRight_eq_div_pow]
  constructor
  · have : a.toNat / 2 ^ 16 % 2 ^ 4 = 0 := by omega
    rw [this]; rfl
  · simp; omega

/-- The region and word index of word `w` of region `r`. -/
theorem window (r w : Nat) (hr : r < 16) (hw : w < 2^14) (a : Addr) (h : a = BitVec.ofNat 20 (r * 0x10000 + 4 * w)) :
    (a.extractLsb' 16 4).toNat = r ∧ wordIndex a = w := by
  subst h
  simp only [wordIndex, BitVec.extractLsb'_toNat, BitVec.toNat_ofNat, Nat.shiftRight_eq_div_pow]
  omega

/-- The five flags of STATUS are read back bit by bit. -/
theorem status_bits (b0 b1 b2 b3 b4 : Bool) : ∃ w : Word, (flagBit b0 0 ||| flagBit b1 1 ||| flagBit b2 2 ||| flagBit b3 3 ||| flagBit b4 4) = w ∧
    w.getLsbD 0 = b0 ∧ w.getLsbD 1 = b1 ∧ w.getLsbD 2 = b2 ∧ w.getLsbD 3 = b3 ∧ w.getLsbD 4 = b4 ∧ w.toNat < 32 := by
  refine ⟨_, rfl, ?_⟩
  revert b0 b1 b2 b3 b4; decide

/-- A STATUS write, both clears at once. -/
theorem writeStatus_eq (v : Word) (s : State) : writeStatus v s = { s with done := s.done && !v.getLsbD 1, wrWhileBusy := s.wrWhileBusy && !v.getLsbD 4 } := by
  simp only [writeStatus, acknowledge]
  cases v.getLsbD 1 <;> cases v.getLsbD 4 <;> simp

/-- CTRL has one offset. -/
theorem reg_ctrl (o : Nat) (h : regAt o = some .ctrl) : o = 0x20 := by
  unfold regAt at h; split at h <;> first | rfl | cases h

/-- STATUS has one offset. -/
theorem reg_status (o : Nat) (h : regAt o = some .status) : o = 0x24 := by
  unfold regAt at h; split at h <;> first | rfl | cases h

/-- CMD has one offset. -/
theorem reg_cmd (o : Nat) (h : regAt o = some .cmd) : o = 0x28 := by
  unfold regAt at h; split at h <;> first | rfl | cases h

/-- Everything one host write can do to the state. -/
theorem write_cases (s : State) (addr : Addr) (v : Word) :
    (s.busy = true ∧ writeWord s addr v = { s with wrWhileBusy := true }) ∨
    (addr = 0x20 ∧ writeWord s addr v = writeCtrl v s) ∨
    (addr = 0x24 ∧ writeWord s addr v = writeStatus v s) ∨
    (s.busy = false ∧ addr = 0x28 ∧ writeWord s addr v = acceptCommand v s) ∨
    (s.busy = false ∧ (writeWord s addr v = s ∨ (∃ x, writeWord s addr v = { s with shapeLen := x}) ∨ (∃ x, writeWord s addr v = { s with leafLen := x}) ∨
      (∃ x, writeWord s addr v = { s with msgLen := x}) ∨ (∃ x, writeWord s addr v = { s with textLen := x}) ∨
      (∃ w, writeWord s addr v = { s with shape := writeBitWord s.params.shapeCap s.shape w v }) ∨
      (∃ w, writeWord s addr v = { s with msg := writeBitWord s.params.msgCap s.msg w v }) ∨
      (∃ w, writeWord s addr v = { s with leaves := writeSymWord s.params.symW s.params.leafCap s.leaves w v }) ∨
      (∃ w, writeWord s addr v = { s with text := writeSymWord s.params.symW s.params.textCap s.text w v }))) := by
  by_cases hb : s.busy = true
  · by_cases hw : writableWhileBusy addr = true
    · rcases wwb addr hw with rfl | rfl
      · right; left; refine ⟨rfl, ?_⟩
        obtain ⟨h1, h2, h3⟩ := addr_ctrl
        simp [writeWord, storeWord, h1, h2, h3, writeReg]
      · right; right; left; refine ⟨rfl, ?_⟩
        obtain ⟨h1, h2, h3⟩ := addr_status
        simp [writeWord, storeWord, h1, h2, h3, writeReg]
    · left; refine ⟨hb, ?_⟩; simp at hw; simp [writeWord, hb, hw]
  · simp at hb
    have hw : writeWord s addr v = storeWord s addr v := by simp [writeWord, hb]
    rw [hw]
    cases hr : regionOf addr
    case regs =>
      cases ho : regAt (offsetOf addr) with
      | none => right; right; right; right; exact ⟨hb, .inl (by simp [storeWord, hr, ho])⟩
      | some r =>
        have hs : storeWord s addr v = writeReg s v r := by simp [storeWord, hr, ho]
        rw [hs]
        have ha := regs_addr addr hr
        have hoff : ∀ o, offsetOf addr = o → addr = BitVec.ofNat 20 o := by
          intro o h; rw [← h, ← ha]; simp
        cases r
        case ctrl => right; left; exact ⟨hoff 0x20 (reg_ctrl _ ho), rfl⟩
        case status => right; right; left; exact ⟨hoff 0x24 (reg_status _ ho), rfl⟩
        case cmd => right; right; right; left; exact ⟨hb, hoff 0x28 (reg_cmd _ ho), rfl⟩
        all_goals
          right; right; right; right
          refine ⟨hb, ?_⟩
        case shapeLen => exact .inr (.inl ⟨v, rfl⟩)
        case leafLen => exact .inr (.inr (.inl ⟨v, rfl⟩))
        case msgLen => exact .inr (.inr (.inr (.inl ⟨v, rfl⟩)))
        case textLen => exact .inr (.inr (.inr (.inr (.inl ⟨v, rfl⟩))))
        all_goals exact .inl rfl
    all_goals
      right; right; right; right
      refine ⟨hb, ?_⟩
    case shapeW => exact .inr (.inr (.inr (.inr (.inr (.inl ⟨wordIndex addr, by simp [storeWord, hr]⟩)))))
    case msgW => exact .inr (.inr (.inr (.inr (.inr (.inr (.inl ⟨wordIndex addr, by simp [storeWord, hr]⟩))))))
    case leavesW => exact .inr (.inr (.inr (.inr (.inr (.inr (.inr (.inl ⟨wordIndex addr, by simp [storeWord, hr]⟩)))))))
    case textW => exact .inr (.inr (.inr (.inr (.inr (.inr (.inr (.inr ⟨wordIndex addr, by simp [storeWord, hr]⟩)))))))
    all_goals exact .inl (by simp [storeWord, hr])

end Sys2Proof.Machine
end

