-- ==== Sys2Proof/Laws/Invariant.lean ====
section
/-! SUPPORT. Carrying the invariant from one state to another (R60). -/

open Sys2Proof

namespace Sys2Proof.Machine

/-- Two memories that hold the same tree are equal. -/
theorem State.HoldsTree.node_eq {s u : State} {t : CodeTree} (h : s.HoldsTree t) (h' : u.HoldsTree t) (hw : s.node.wf) (hw' : u.node.wf) : u.node = s.node :=
  ext_of_wf _ _ hw' hw fun k => by rw [h.image, h'.image]

/-- What holding a tree rests on. -/
theorem State.HoldsTree.congr {s u : State} {t : CodeTree} (h : s.HoldsTree t) (h1 : u.treeValid = s.treeValid) (h2 : u.nodeCount = s.nodeCount) (h3 : u.params = s.params) (h4 : u.node = s.node) : u.HoldsTree t :=
  ⟨by rw [h1]; exact h.valid, by rw [h2]; exact h.count, by rw [h3]; exact h.fits, by rw [h4]; exact h.image⟩

/-- The invariant of a state whose tree slot is as before. -/
theorem inv_same_tree {s u : State} (hI : s.Inv) (hp : u.params = s.params) (hv : u.treeValid = s.treeValid) (hc : u.nodeCount = s.nodeCount) (hn : u.node = s.node)
  (h1 : u.shape.Fits u.params.shapeCap) (h2 : u.leaves.Fits u.params.leafCap) (h3 : u.msg.Fits u.params.msgCap) (h4 : u.text.Fits u.params.textCap)
  (h5 : SymsFit u.params.symW u.leaves) (h6 : SymsFit u.params.symW u.text) (h7 : u.errCause.toNat ≤ 9)
  (h8 : u.busy = true → u.done = false ∧ u.errCause = 0 ∧ u.errDetail = 0 ∧ u.errIndex = 0) : u.Inv where
  legal := by rw [hp]; exact hI.legal
  shapeFits := h1
  leavesFits := h2
  msgFits := h3
  textFits := h4
  nodeFits := by rw [hp, hn]; exact hI.nodeFits
  leavesSyms := h5
  textSyms := h6
  cause := h7
  noTree h := by rw [hc, hn]; exact hI.noTree (by rw [← hv]; exact h)
  tree h := by
    obtain ⟨t, ht, hs⟩ := hI.tree (by rw [← hv]; exact h)
    exact ⟨t, State.HoldsTree.congr ht hv hc hp hn, by rw [hp]; exact hs⟩
  busyClear := h8

/-- The agenda plays no part in the invariant. -/
theorem inv_agenda {s : State} (hI : s.Inv) (a : List Event) : State.Inv { s with agenda := a } := by
  exact inv_same_tree hI rfl rfl rfl rfl hI.shapeFits hI.leavesFits hI.msgFits hI.textFits hI.leavesSyms hI.textSyms hI.cause hI.busyClear

/-- A reset keeps the invariant. -/
theorem reset_inv (s : State) (hI : s.Inv) : (resetState s).Inv where
  legal := hI.legal
  shapeFits := fits_nil _
  leavesFits := fits_nil _
  msgFits := fits_nil _
  textFits := fits_nil _
  nodeFits := fits_nil _
  leavesSyms := symsFit_nil _
  textSyms := symsFit_nil _
  cause := by simp
  noTree _ := ⟨rfl, rfl⟩
  tree h := by simp at h
  busyClear h := by simp [State.busy] at h

/-- A host write keeps the invariant. -/
theorem write_inv (s : State) (addr : Addr) (v : Word) (hI : s.Inv) : (writeWord s addr v).Inv := by
  have h16 := hI.legal.1.2
  rcases write_cases s addr v with ⟨hb, h⟩ | ⟨-, h⟩ | ⟨-, h⟩ | ⟨hb, -, h⟩ | ⟨hb, h⟩
  · rw [h]; exact inv_same_tree hI rfl rfl rfl rfl hI.shapeFits hI.leavesFits hI.msgFits hI.textFits hI.leavesSyms hI.textSyms hI.cause hI.busyClear
  · rw [h, writeCtrl]; split
    · exact reset_inv s hI
    · exact inv_same_tree hI rfl rfl rfl rfl hI.shapeFits hI.leavesFits hI.msgFits hI.textFits hI.leavesSyms hI.textSyms hI.cause hI.busyClear
  · rw [h, writeStatus_eq]
    exact inv_same_tree hI rfl rfl rfl rfl hI.shapeFits hI.leavesFits hI.msgFits hI.textFits hI.leavesSyms hI.textSyms hI.cause
      (fun hb => ⟨by simp [(hI.busyClear hb).1], (hI.busyClear hb).2⟩)
  · rw [h]; exact inv_same_tree hI rfl rfl rfl rfl hI.shapeFits hI.leavesFits hI.msgFits hI.textFits hI.leavesSyms hI.textSyms (by simp) (fun _ => ⟨rfl, rfl, rfl, rfl⟩)
  · rcases h with h | ⟨x, h⟩ | ⟨x, h⟩ | ⟨x, h⟩ | ⟨x, h⟩ | ⟨w, h⟩ | ⟨w, h⟩ | ⟨w, h⟩ | ⟨w, h⟩ <;> rw [h]
    · exact hI
    iterate 4 exact inv_same_tree hI rfl rfl rfl rfl hI.shapeFits hI.leavesFits hI.msgFits hI.textFits hI.leavesSyms hI.textSyms hI.cause hI.busyClear
    · exact inv_same_tree hI rfl rfl rfl rfl (fits_writeBitWord _ _ _ _ hI.shapeFits) hI.leavesFits hI.msgFits hI.textFits hI.leavesSyms hI.textSyms hI.cause hI.busyClear
    · exact inv_same_tree hI rfl rfl rfl rfl hI.shapeFits hI.leavesFits (fits_writeBitWord _ _ _ _ hI.msgFits) hI.textFits hI.leavesSyms hI.textSyms hI.cause hI.busyClear
    · exact inv_same_tree hI rfl rfl rfl rfl hI.shapeFits (fits_writeSymWord _ _ _ _ _ hI.leavesFits) hI.msgFits hI.textFits (symsFit_writeSymWord _ _ _ _ _ hI.leavesFits.1 h16 hI.leavesSyms) hI.textSyms hI.cause hI.busyClear
    · exact inv_same_tree hI rfl rfl rfl rfl hI.shapeFits hI.leavesFits hI.msgFits (fits_writeSymWord _ _ _ _ _ hI.textFits) hI.leavesSyms (symsFit_writeSymWord _ _ _ _ _ hI.textFits.1 h16 hI.textSyms) hI.cause hI.busyClear

end Sys2Proof.Machine
end

