-- ==== Sys2Proof/Laws/Layout.lean ====
section
/-! SUPPORT. The pre-order layout of a tree against its flattened form (R52, R143). -/

open Sys2Proof

namespace Sys2Proof.Machine

/-- An entry of the layout is a leaf exactly where the shape has a 0. -/
theorem layout_shape (t : CodeTree) (i k : Nat) : t.shape[k]? = (t.layout i)[k]?.map (fun n => match n with | .leaf _ => false | .internal _ _ => true) := by
  induction t generalizing i k with
  | leaf x => cases k <;> simp [CodeTree.shape, CodeTree.layout]
  | node z o hz ho =>
    cases k with
    | zero => simp [CodeTree.shape, CodeTree.layout]
    | succ k =>
      simp only [CodeTree.shape, CodeTree.layout, List.getElem?_cons_succ]
      by_cases hk : k < z.size
      · rw [List.getElem?_append_left (by simpa using hk), List.getElem?_append_left (by simpa using hk), hz (i+1)]
      · rw [List.getElem?_append_right (by simpa using hk), List.getElem?_append_right (by simpa using hk), ho (i+1+z.size)]
        simp

/-- The children of an internal entry stand above it. -/
theorem layout_child (t : CodeTree) (i k : Nat) (z o : NodeIdx) (hi : i + t.size ≤ 2^15) (h : (t.layout i)[k]? = some (.internal z o)) :
    z.toNat = i + k + 1 ∧ z.toNat < o.toNat ∧ o.toNat < i + t.size := by
  induction t generalizing i k with
  | leaf x => cases k <;> simp [CodeTree.layout] at h
  | node l r hl hr =>
    simp only [CodeTree.size] at hi ⊢
    have := l.size_pos
    have := r.size_pos
    cases k with
    | zero =>
      simp only [CodeTree.layout, List.getElem?_cons_zero, Option.some.injEq, Node.internal.injEq] at h
      obtain ⟨rfl, rfl⟩ := h
      rw [idx_toNat _ (by omega), idx_toNat _ (by omega)]
      omega
    | succ k =>
      simp only [CodeTree.layout, List.getElem?_cons_succ] at h
      by_cases hk : k < l.size
      · rw [List.getElem?_append_left (by simpa using hk)] at h
        have := hl (i+1) k (by omega) h
        omega
      · rw [List.getElem?_append_right (by simpa using hk)] at h
        simp only [CodeTree.layout_length] at h
        have := hr (i+1+l.size) (k - l.size) (by omega) h
        omega

/-- Where the children of an internal entry stand, and that their subtrees stand there. -/
theorem subtreeAt_children (m : Memory Node) (t : CodeTree) (i k : Nat) (z o : NodeIdx) (hm : SubtreeAt m i t)
    (hi : i + t.size ≤ 2 ^ 15) (hk : k < t.size) (h : m.cell (i + k) = some (.internal z o)) :
    z.toNat = i + k + 1 ∧
      ∃ zero one : CodeTree, SubtreeAt m (i + k + 1) zero ∧ o.toNat = i + k + 1 + zero.size ∧ SubtreeAt m o.toNat one ∧
        o.toNat + one.size ≤ i + t.size := by
  induction t generalizing i k with
  | leaf x =>
    obtain rfl : k = 0 := by simp only [CodeTree.size] at hk; omega
    have hx := subtreeAt_leaf m i x hm
    rw [Nat.add_zero, hx] at h
    cases h
  | node l r hl hr =>
    have hz := subtreeAt_zero m i l r hm
    have ho := subtreeAt_one m i l r hm
    simp only [CodeTree.size] at hi hk ⊢
    cases k with
    | zero =>
      have hroot := subtreeAt_node m i l r hm
      rw [Nat.add_zero, hroot] at h
      have := r.size_pos
      cases h
      rw [idx_toNat _ (by omega), idx_toNat _ (by omega)]
      exact ⟨by omega, l, r, hz, by omega, ho, by omega⟩
    | succ k =>
      by_cases hlt : k < l.size
      · have e : i + (k + 1) = i + 1 + k := by omega
        rw [e] at h ⊢
        obtain ⟨h1, x, y, hx, hxo, hy, hb⟩ := hl (i + 1) k hz (by omega) hlt h
        exact ⟨h1, x, y, hx, hxo, hy, by omega⟩
      · obtain ⟨d, rfl⟩ : ∃ d, k = l.size + d := ⟨k - l.size, by omega⟩
        have e : i + (l.size + d + 1) = i + 1 + l.size + d := by omega
        rw [e] at h ⊢
        obtain ⟨h1, x, y, hx, hxo, hy, hb⟩ := hr (i + 1 + l.size) d ho (by omega) (by omega) h
        exact ⟨h1, x, y, hx, hxo, hy, by omega⟩

/-- In a state that holds a tree, the children of every internal entry stand where R52 puts them. -/
theorem State.HoldsTree.children {s : State} {t : CodeTree} (ht : s.HoldsTree t) (hl : s.params.Legal) (k : Nat) (z o : NodeIdx)
    (h : s.node.cell k = some (.internal z o)) : s.ChildrenPlaced k z o := by
  have hk : k < t.size := by
    have hi := ht.image k
    rw [h] at hi
    simpa using (List.getElem?_eq_some_iff.mp hi.symm).1
  have := ht.fits
  have := hl.2.1.2
  have key := subtreeAt_children s.node t 0 k z o ht.subtree (by omega) hk (by rwa [Nat.zero_add])
  simpa [State.ChildrenPlaced, ht.count] using key

/-- The leaves of a tree are the leaf entries of its layout in order. -/
theorem layout_leaves (t : CodeTree) (i : Nat) : t.leaves = (t.layout i).filterMap (fun n => match n with | .leaf x => some x | _ => none) := by
  induction t generalizing i with
  | leaf x => simp [CodeTree.leaves, CodeTree.layout]
  | node z o hz ho =>
    simp only [CodeTree.leaves, CodeTree.layout, List.filterMap_cons, List.filterMap_append]
    rw [hz (i+1), ho (i+1+z.size)]

/-- Filtering a list by position. -/
theorem filterMap_range {α β} (l : List α) (f : α → Option β) : l.filterMap f = (List.range l.length).filterMap (fun k => l[k]?.bind f) := by
  induction l with
  | nil => rfl
  | cons a l ih =>
    rw [List.length_cons, List.range_succ_eq_map, List.filterMap_cons, List.filterMap_cons, List.filterMap_map]
    simp only [List.getElem?_cons_zero, Option.bind_some]
    cases f a <;> simp [ih]

end Sys2Proof.Machine
end

