-- ==== Sys2Proof/Laws/PerInstr.lean ====
section
/-! SUPPORT. The family of statements made per instruction: the bytes of a well-formed instruction's command word decode to it, and its word
is listed by R102 exactly when it is one of the five commands. -/

namespace Sys2Proof

/-- The four byte lanes of a word, put together again, are the word (R75). -/
theorem wordBytes_join (w : Word) :
    (w.extractLsb' 24 8 ++ w.extractLsb' 16 8 ++ w.extractLsb' 8 8 ++ w.extractLsb' 0 8 : BitVec 32) = w := by
  apply BitVec.eq_of_toNat_eq
  have := w.isLt
  simp only [BitVec.toNat_append, BitVec.extractLsb'_toNat, Nat.shiftRight_eq_div_pow, Nat.shiftLeft_eq]
  rw [← Nat.shiftLeft_eq, ← Nat.shiftLeft_add_eq_or_of_lt (by omega), ← Nat.shiftLeft_eq, ← Nat.shiftLeft_add_eq_or_of_lt (by omega),
    ← Nat.shiftLeft_eq, ← Nat.shiftLeft_add_eq_or_of_lt (by omega)]
  simp only [Nat.shiftLeft_eq]
  omega

/-- Decoding the four bytes of a word is decoding the word. -/
theorem decodeBytes_wordBytes (w : Word) : decodeBytes (wordBytes w) = .ok (decode w) := by
  show Except.ok (decode _) = _
  rw [wordBytes_join]

end Sys2Proof

namespace Sys2Proof.Laws.TableWord

/-- The bytes of a well-formed instruction's word decode to it, and R102 lists the word exactly when the instruction is a command. -/
def Statement (i : Instr) : Prop :=
  i.wf = true → decodeBytes (wordBytes (encode i)) = .ok i ∧ (listedWord (encode i) = true ↔ ∀ w, i ≠ .illegal w)

theorem unflatten : Statement .unflatten := fun _ => ⟨rfl, by simp [encode, listedWord]⟩

theorem flatten : Statement .flatten := fun _ => ⟨rfl, by simp [encode, listedWord]⟩

theorem encode : Statement .encode := fun _ => ⟨rfl, by simp [Sys2Proof.encode, listedWord]⟩

theorem decode : Statement .decode := fun _ => ⟨rfl, by simp [Sys2Proof.encode, listedWord]⟩

theorem release : Statement .release := fun _ => ⟨rfl, by simp [Sys2Proof.encode, listedWord]⟩

theorem illegal (word : Word) : Statement (.illegal word) := by
  intro h
  simp only [Instr.wf, Bool.not_eq_true'] at h
  refine ⟨?_, by simp [Sys2Proof.encode, h]⟩
  rw [Sys2Proof.encode, decodeBytes_wordBytes, Machine.decode_illegal]
  have hl := Machine.listed_iff word
  simp only [h, Bool.false_eq_true, false_iff] at hl
  omega

end Sys2Proof.Laws.TableWord
end

