-- ==== Sys2Proof/Tests/Slice0.lean ====
section
/-! SUPPORT. The model's own tests: ill-formed terms, command words written out from R102, the vectors of spec/95_test_vectors.md (each test
names its own), and a witness for the hypotheses of every obligation that has some. -/

namespace Sys2Proof.Tests

open Sys2Proof Sys2Proof.Machine

/-! ### Small states -/

/-- Letters of the vectors, as ASCII (R14). -/
def sA : Symbol := 0x41
def sB : Symbol := 0x42
def sC : Symbol := 0x43
def sD : Symbol := 0x44
def sE : Symbol := 0x45
def sR : Symbol := 0x52
def sS : Symbol := 0x53
def sT : Symbol := 0x54
def sX : Symbol := 0x58

/-- Bits of a vector, written as 0 and 1. -/
def bits (l : List Nat) : List Bool := l.map (· == 1)

/-- The reference tree of 95_test_vectors.md. -/
def refTree : CodeTree := .node (.leaf sT) (.node (.node (.leaf sR) (.leaf sS)) (.leaf sE))

/-- The tree of vector U11, the same symbol twice. -/
def twinTree : CodeTree := .node (.leaf sA) (.leaf sA)

/-- The state after reset with the four buffers filled from position 0 and their length registers set. -/
def bench (shape : List Bool) (leaves : List Symbol) (msg : List Bool) (text : List Symbol) : State :=
  { State.reset with
    shape := Memory.putList [] 0 shape, shapeLen := BitVec.ofNat 32 shape.length
    leaves := Memory.putList [] 0 leaves, leafLen := BitVec.ofNat 32 leaves.length
    msg := Memory.putList [] 0 msg, msgLen := BitVec.ofNat 32 msg.length
    text := Memory.putList [] 0 text, textLen := BitVec.ofNat 32 text.length }

/-- A state with the tree `t` loaded into it. -/
def withTree (t : CodeTree) (s : State) : State :=
  { s with node := Memory.putList [] 0 (t.layout 0), nodeCount := BitVec.ofNat 32 t.size, treeValid := true }

/-- A state with other parameters. -/
def withCaps (nodeCap msgCap textCap : Nat) (s : State) : State :=
  { s with params := { s.params with nodeCap := nodeCap, msgCap := msgCap, textCap := textCap } }

/-- The next state of an outcome; the state after reset where it is a stop. -/
def nextOf : Result → State
  | .next u => u
  | .fault _ => State.reset
  | .refused _ => State.reset

/-- Whether an outcome is a next state. -/
def goesOn : Result → Bool
  | .next _ => true
  | .fault _ => false
  | .refused _ => false

/-- The error registers an outcome leaves, or none where it is a stop. -/
def reportOf : Result → Option (Byte × Byte × Word)
  | .next u => some (u.errCause, u.errDetail, u.errIndex)
  | .fault _ => none
  | .refused _ => none

/-- An outcome that goes on answers its next state. -/
theorem goesOn_next (r : Result) (h : goesOn r = true) : r = .next (nextOf r) := by
  cases r <;> first | rfl | cases h

/-- A full access to an address. -/
def at20 (addr : Nat) : Access := ⟨addr, 4, 0xF⟩

/-- The answer of a host read. -/
def readOf (s : State) (addr : Nat) : Option Word := (nextOf (hostRead (at20 addr) s)).rdata

/-- The state after a host write. -/
def wrote (s : State) (addr : Nat) (v : Word) : State := nextOf (hostWrite (at20 addr) v s)

/-! ### Well-formedness smoke test -/

theorem test_illformed_1 : Instr.wf (.illegal 0x00000001) = false := by decide
theorem test_illformed_2 : Instr.wf (.illegal 0x00000002) = false := by decide
theorem test_illformed_3 : Instr.wf (.illegal 0x00000003) = false := by decide
theorem test_illformed_4 : Instr.wf (.illegal 0x00000004) = false := by decide
theorem test_illformed_5 : Instr.wf (.illegal 0x00000005) = false := by decide
theorem test_wellformed_illegal : Instr.wf (.illegal 0x00000006) = true ∧ Instr.wf (.illegal 0x00000011) = true := by decide

/-! ### Decoding words written out from R101 and R102: 28 zero bits of RSVD, then OPCODE -/

theorem test_decode_unflatten : decode 0b00000000000000000000000000000001#32 = .unflatten := by decide
theorem test_decode_flatten : decode 0b00000000000000000000000000000010#32 = .flatten := by decide
theorem test_decode_encode : decode 0b00000000000000000000000000000011#32 = .encode := by decide
theorem test_decode_decode : decode 0b00000000000000000000000000000100#32 = .decode := by decide
theorem test_decode_release : decode 0b00000000000000000000000000000101#32 = .release := by decide

/-- I1, I2, I3. -/
theorem test_decode_reserved_opcode : decode 0x0 = .illegal 0x0 ∧ decode 0x6 = .illegal 0x6 ∧ decode 0xF = .illegal 0xF := by decide

/-- I4, I5, I6. -/
theorem test_decode_reserved_bits :
    decode 0x00000013 = .illegal 0x13 ∧ decode 0x80000001 = .illegal 0x80000001 ∧ decode 0x00000010 = .illegal 0x10 := by decide

/-- R75: the word 0x00000104 lies in memory as 04, 01, 00, 00; it is not DECODE. -/
theorem test_decode_bytes : decodeBytes [0x04, 0x00, 0x00, 0x00] = .ok .decode ∧
    decodeBytes [0x04, 0x01, 0x00, 0x00] = .ok (.illegal 0x00000104) ∧ decodeBytes [0x04] = .error (.notOneWord 1) := ⟨rfl, rfl, rfl⟩

theorem test_table_word : decodeTableWord 32 5 = some .release ∧ decodeTableWord 32 0x13 = some (.illegal 0x13) := by decide

/-- The first step after reset performs the placed word: Z6, RELEASE right after reset reports NO_TREE. -/
theorem test_first_step : reportOf (step (State.reset.withFetchWord 32 5)) = some (2, 0, 0) := by decide

/-! ### Vectors of UNFLATTEN -/

/-- U1 and U15: the node image and STATUS 0x0000000A; node memory exactly filled. -/
theorem test_U1_U15 : (nextOf (exec .unflatten (bench (bits [1,0,1,1,0,0,0]) [sT, sR, sS, sE] [] []))).node =
      [(0, .internal 1 2), (1, .leaf sT), (2, .internal 3 6), (3, .internal 4 5), (4, .leaf sR), (5, .leaf sS), (6, .leaf sE)] ∧
    statusWord (nextOf (exec .unflatten (bench (bits [1,0,1,1,0,0,0]) [sT, sR, sS, sE] [] []))) = 0x0000000A ∧
    (nextOf (exec .unflatten (withCaps 7 65536 8192 (bench (bits [1,1,1,0,0,0,0]) [sA, sB, sC, sD] [] [])))).node =
      [(0, .internal 1 6), (1, .internal 2 5), (2, .internal 3 4), (3, .leaf sA), (4, .leaf sB), (5, .leaf sC), (6, .leaf sD)] := by decide

/-- U2, U3, U5, U9, U6, U7, U8, U14, U16, U17, U18: the reports of the data phase and of the check phase. -/
theorem test_U_errors : reportOf (exec .unflatten (bench [] [] [] [])) = some (6, 1, 0) ∧
    reportOf (exec .unflatten (bench (bits [1,0]) [sA] [] [])) = some (6, 1, 2) ∧
    reportOf (exec .unflatten (bench (bits [1,0]) [] [] [])) = some (6, 2, 1) ∧
    reportOf (exec .unflatten (bench (bits [1,1,0,0]) [sA, sB, sC] [] [])) = some (6, 1, 4) ∧
    reportOf (exec .unflatten (bench (bits [1,0,0,0]) [sA, sB] [] [])) = some (6, 3, 3) ∧
    reportOf (exec .unflatten (bench (bits [0,0]) [sA, sB] [] [])) = some (6, 3, 1) ∧
    reportOf (exec .unflatten (bench (bits [1,0,0]) [sA, sB, sC] [] [])) = some (6, 4, 2) ∧
    reportOf (exec .unflatten (withCaps 7 65536 8192 (bench (bits [1,1,1,1,1,0,0,0,0,0,0]) [sA, sB, sC, sD, sE, sR] [] []))) =
      some (9, 1, 7) ∧
    reportOf (exec .unflatten { bench [] [] [] [] with shapeLen := 1025 }) = some (4, 1, 0) ∧
    reportOf (exec .unflatten { bench (bits [1,0,0]) [] [] [] with leafLen := 513 }) = some (4, 2, 0) ∧
    statusWord (nextOf (exec .unflatten { withTree refTree (bench [] [] [] []) with shapeLen := 1025 })) = 0x0000000E := by
  refine ⟨?_, ?_, ?_, ?_, ?_, ?_, ?_, ?_, ?_, ?_, ?_⟩ <;> decide

/-! ### Vectors of FLATTEN -/

/-- F1: the lengths and the leaves. -/
theorem test_F1 : (nextOf (exec .flatten (withTree refTree (bench [] [] [] [])))).leaves = [(0, sT), (1, sR), (2, sS), (3, sE)] ∧
    (nextOf (exec .flatten (withTree refTree (bench [] [] [] [])))).shapeLen = 7 := by decide

/-- F6: SHAPEW word 0 was 0xFFFFFFFF; the bits past the output keep their old 1s. -/
theorem test_F6 : readOf (nextOf (exec .flatten (wrote (withTree refTree (bench [] [] [] [])) 0x10000 0xFFFFFFFF))) 0x10000 =
    some 0xFFFFFF8D := by decide

/-! ### Vectors of ENCODE -/

/-- N1: S, E, T. -/
theorem test_N1 : (nextOf (exec .encode (withTree refTree (bench [] [] [] [sS, sE, sT])))).msg =
    [(0, true), (1, false), (2, true), (3, true), (4, true), (5, false)] := by decide

/-- N5, N6, N9, N13: unknown symbol, capacity, degenerate tree, and membership before capacity. -/
theorem test_N5_N6_N9_N13 : reportOf (exec .encode (withTree refTree (bench [] [] [] [sT, sE, sX]))) = some (7, 0, 2) ∧
    reportOf (exec .encode (withCaps 511 6 8192 (withTree refTree (bench [] [] [] [sT, sR, sS])))) = some (9, 3, 2) ∧
    reportOf (exec .encode (withTree (.leaf sA) (bench [] [] [] [sA]))) = some (5, 0, 0) ∧
    reportOf (exec .encode (withCaps 511 1 8192 (withTree refTree (bench [] [] [] [sX])))) = some (7, 0, 0) := by decide

/-! ### Vectors of DECODE -/

/-- D2: T, R, E, S, S. -/
theorem test_D2 : (nextOf (exec .decode (withTree refTree (bench [] [] (bits [0,1,0,0,1,1,1,0,1,1,0,1]) [])))).text =
    [(0, sT), (1, sR), (2, sE), (3, sS), (4, sS)] := by decide

/-- D4, D5, D6, D7: unfinished codes at the index where they start, and a full text buffer. -/
theorem test_D4_D5_D6_D7 : reportOf (exec .decode (withTree refTree (bench [] [] (bits [1,0]) []))) = some (8, 0, 0) ∧
    reportOf (exec .decode (withTree refTree (bench [] [] (bits [0,1,0]) []))) = some (8, 0, 1) ∧
    reportOf (exec .decode (withTree refTree (bench [] [] (bits [0,1,1,1]) []))) = some (8, 0, 3) ∧
    reportOf (exec .decode (withCaps 511 65536 2 (withTree refTree (bench [] [] (bits [0,0,0]) [])))) = some (9, 4, 2) := by decide

/-! ### Vectors of RELEASE and of illegal words -/

/-- L1, L2: STATUS afterwards. -/
theorem test_L1_L2 : statusWord (nextOf (exec .release (withTree refTree (bench [] [] [] [])))) = 0x00000002 ∧
    statusWord (nextOf (exec .release (bench [] [] [] []))) = 0x00000006 := by decide

/-- I2, I4: the pending word is performed as illegal. -/
theorem test_I2_I4 : reportOf (step (State.reset.withFetchWord 32 0x6)) = some (1, 1, 0) ∧
    reportOf (step (State.reset.withFetchWord 32 0x13)) = some (1, 2, 0) := by decide

/-! ### Vectors of the host port -/

/-- H1, H3: a whole word of SHAPE, and the first word past its capacity. -/
theorem test_H1_H3 : (wrote State.reset 0x10000 0xFFFFFFFF).shape = Memory.putList [] 0 (List.replicate 32 true) ∧
    readOf State.reset 0x10080 = some 0 := by decide

/-- H4: the low SYM_W bits are stored. -/
theorem test_H4 : readOf (wrote State.reset 0x40000 0x12345678) 0x40000 = some 0x00000078 := by decide

/-- H5, H6, H7, H8: writes without effect and reads of zero. -/
theorem test_H5_H6_H7_H8 : wrote State.reset 0x50000 0x80000041 = State.reset ∧ readOf State.reset 0x60000 = some 0 ∧
    readOf State.reset 0x0001C = some 0 ∧ readOf State.reset 0x00028 = some 0 := by decide

/-- H9: a misaligned read. -/
theorem test_H9 : goesOn (hostRead (at20 0x10002) State.reset) = false := by decide

/-- H10, H11: ID, SYMW and NODE_CAP_R. -/
theorem test_H10_H11 : readOf State.reset 0x00000 = some 0x48544301 ∧ readOf State.reset 0x00004 = some 0x00000008 ∧
    readOf State.reset 0x00008 = some 0x000001FF := by decide

/-- H12: both flags are cleared, ERR stays. -/
theorem test_H12 : statusWord (wrote { State.reset with done := true, wrWhileBusy := true, errCause := 2 } 0x00024 0xFFFFFFFF) =
    0x00000004 := by decide

/-- H13: a length register keeps any value. -/
theorem test_H13 : readOf (wrote State.reset 0x00048 0xFFFFFFFF) 0x00048 = some 0xFFFFFFFF := by decide

/-- The node words of the reference tree. -/
theorem test_node_words : (List.range 7).map (fun w => readOf (withTree refTree (bench [] [] [] [])) (0x50000 + 4 * w)) =
    [some 0x00010002, some 0x80000054, some 0x00030006, some 0x00040005, some 0x80000052, some 0x80000053, some 0x80000045] := by decide

/-- A DECODE pending after reset (section 2.8 of the vectors). -/
def busyState : State := { bench [] [] [] [] with pend := some 0x00000004 }

/-- B1, B2, B3: dropped writes are recorded. -/
theorem test_B1_B2_B3 : (wrote busyState 0x00048 5).msgLen = 0 ∧ (wrote busyState 0x00028 3).pend = some 4 ∧
    readOf (wrote busyState 0x00048 5) 0x00024 = some 0x00000011 := by decide

/-- B5, B6, B7: an error register, CTRL and a soft reset in the busy window. -/
theorem test_B5_B6_B7 : readOf busyState 0x0002C = some 0 ∧ (wrote busyState 0x00020 1).irqEn = true ∧
    wrote busyState 0x00020 2 = State.reset := by decide

/-- Q1, Q2, Q4, Q5: irq at completion, after the acknowledgement, at a later enable and at issue. -/
theorem test_Q1_Q2_Q4_Q5 : (nextOf (exec .decode { busyState with irqEn := true })).irq = true ∧
    (wrote { State.reset with irqEn := true, done := true } 0x00024 2).irq = false ∧
    (wrote { State.reset with done := true } 0x00020 1).irq = true ∧
    (wrote { State.reset with irqEn := true, done := true } 0x00028 1).irq = false := by decide

/-- Z1, Z2: STATUS and CTRL after reset. -/
theorem test_Z1_Z2 : readOf State.reset 0x00024 = some 0 ∧ readOf State.reset 0x00020 = some 0 := by decide

/-! ### Witnesses: states and operands that meet the hypotheses of the obligations, each clause at a boundary of its range -/

/-- The invariant of a state filled by `bench`. -/
theorem bench_inv (sh : List Bool) (lv : List Symbol) (ms : List Bool) (tx : List Symbol) (h1 : sh.length ≤ 1024) (h2 : lv.length ≤ 512)
    (h3 : ms.length ≤ 65536) (h4 : tx.length ≤ 8192) (h5 : ∀ x ∈ lv, x.toNat < 2 ^ 8) (h6 : ∀ x ∈ tx, x.toNat < 2 ^ 8) :
    (bench sh lv ms tx).Inv where
  legal := show Params.defaults.Legal by decide
  shapeFits := fits_putList _ _ _ _ (fits_nil _) (.inl (by simpa [bench, State.reset, Params.defaults] using h1))
  leavesFits := fits_putList _ _ _ _ (fits_nil _) (.inl (by simpa [bench, State.reset, Params.defaults] using h2))
  msgFits := fits_putList _ _ _ _ (fits_nil _) (.inl (by simpa [bench, State.reset, Params.defaults] using h3))
  textFits := fits_putList _ _ _ _ (fits_nil _) (.inl (by simpa [bench, State.reset, Params.defaults] using h4))
  nodeFits := fits_nil _
  leavesSyms := symsFit_putList 8 _ _ List.Pairwise.nil (symsFit_nil _) h5
  textSyms := symsFit_putList 8 _ _ List.Pairwise.nil (symsFit_nil _) h6
  cause := Nat.zero_le 9
  noTree _ := ⟨rfl, rfl⟩
  tree h := by cases h
  busyClear h := by cases h

/-- `withTree` loads the tree. -/
theorem withTree_holds (t : CodeTree) (s : State) (h : t.size ≤ s.params.nodeCap) (hl : s.params.Legal) : (withTree t s).HoldsTree t where
  valid := rfl
  count := by have := hl.2.1.2; simp [withTree]; omega
  fits := h
  image k := by
    show Memory.cell (Memory.putList [] 0 (t.layout 0)) k = _
    rw [cell_putList _ _ _ _ List.Pairwise.nil]
    split
    · simp
    · next h' => simp at h'; simp [h']

/-- The invariant of a state with a tree loaded by `withTree`. -/
theorem withTree_inv (t : CodeTree) (s : State) (hI : s.Inv) (h : t.size ≤ s.params.nodeCap)
    (hs : ∀ x ∈ t.leaves, x.toNat < 2 ^ s.params.symW) : (withTree t s).Inv where
  legal := hI.legal
  shapeFits := hI.shapeFits
  leavesFits := hI.leavesFits
  msgFits := hI.msgFits
  textFits := hI.textFits
  nodeFits := fits_putList _ _ _ _ (fits_nil _) (.inl (by simpa [withTree] using h))
  leavesSyms := hI.leavesSyms
  textSyms := hI.textSyms
  cause := hI.cause
  noTree h' := by cases h'
  tree _ := ⟨t, withTree_holds t s h hI.legal, hs⟩
  busyClear := hI.busyClear

/-- The reference streams in SHAPE and LEAVES, no tree loaded. -/
def refStreams : State := bench (bits [1,0,1,1,0,0,0]) [sT, sR, sS, sE] [] []

/-- The reference tree loaded, with the text SET and the message 0, 1, 0, 0. -/
def refLoaded : State := withTree refTree (bench [] [] (bits [0,1,0,0]) [sS, sE, sT])

theorem refStreams_inv : refStreams.Inv := by
  unfold refStreams
  apply bench_inv <;> simp [bits, sE, sR, sS, sT]

theorem refLoaded_inv : refLoaded.Inv := by
  unfold refLoaded
  refine withTree_inv _ _ ?_ (by decide) (by simp [refTree, CodeTree.leaves, bench, State.reset, Params.defaults, sE, sR, sS, sT])
  apply bench_inv <;> simp [bits, sE, sS, sT]

theorem refLoaded_holds : refLoaded.HoldsTree refTree := withTree_holds _ _ (by decide) (by decide)

theorem busyState_inv : busyState.Inv := by
  have h : (bench [] [] [] []).Inv := by apply bench_inv <;> simp
  exact inv_same_tree h rfl rfl rfl rfl h.shapeFits h.leavesFits h.msgFits h.textFits h.leavesSyms h.textSyms h.cause
    fun _ => ⟨rfl, rfl, rfl, rfl⟩

theorem witness_DecodeOfEncodeIsIdentity : Instr.wf .unflatten = true ∧ Instr.wf (.illegal 0) = true ∧
    Instr.wf (.illegal 0xFFFFFFFF) = true := by decide

theorem witness_IllegalWordCompletesWithError :
    ((0 : Word).toNat % 16 = 0) ∧ (6 ≤ (6 : Word).toNat % 16) ∧ ((0x10 : Word).toNat / 16 ≠ 0) ∧ State.reset.busy = false := by decide

theorem witness_StepRunsPendingCommand : (busyState.pend = some 4 ∧ busyState.agenda = []) ∧
    { busyState with agenda := [.engine] }.agenda = .engine :: [] := ⟨⟨rfl, rfl⟩, rfl⟩

theorem witness_IdleAndHostMoves : (State.reset.pend = none ∧ State.reset.agenda = []) ∧
    { State.reset with agenda := [.engine] }.agenda = .engine :: [] ∧
    { State.reset with agenda := [.read (at20 0)] }.agenda = .read (at20 0) :: [] ∧
    { State.reset with agenda := [.write (at20 0x20) 1] }.agenda = .write (at20 0x20) 1 :: [] := ⟨⟨rfl, rfl⟩, rfl, rfl, rfl⟩

theorem witness_ResetRestoresEveryValue : { busyState with agenda := [.reset] }.agenda = .reset :: [] ∧
    { busyState with agenda := [.write (at20 0x20) 2] }.agenda = .write (at20 0x20) 2 :: [] ∧ (at20 0x20).ok = true ∧
    blockAddr (at20 0x20).addr = 0x00020 ∧ (2 : Word).getLsbD 1 = true := by decide

theorem witness_PendingCommandCompletes :
    { busyState with agenda := [.read (at20 0x24), .write (at20 0x28) 1, .engine] }.Inv ∧
    busyState.pend = some 4 ∧ agendaOk [.read (at20 0x24), .write (at20 0x28) 1, .engine] = true :=
  ⟨inv_agenda busyState_inv _, rfl, rfl⟩

/-- No move of that agenda resets the block. -/
theorem witness_PendingCommandCompletes_noReset :
    ∀ rest, rest <:+ [.read (at20 0x24), .write (at20 0x28) 1, .engine] → ¬ resetMove rest := by
  have hw : ¬ blockAddr (at20 0x28).addr = 0x00020 := by decide
  intro rest h
  simp only [List.suffix_cons_iff, List.suffix_nil] at h
  rcases h with rfl | rfl | rfl | rfl
  · simp [resetMove]
  · rintro (⟨_, e⟩ | ⟨a, v, _, e, _, ha, _⟩)
    · cases e
    · cases e; exact hw ha
  · simp [resetMove]
  · simp [resetMove]

theorem witness_PendingCommandIsKept : busyState.pend = some 4 ∧ ∃ u, step { busyState with agenda := [.read (at20 0x24)] } = .next u ∧
    ¬ engineMove [.read (at20 0x24)] ∧ ¬ resetMove [.read (at20 0x24)] :=
  ⟨rfl, _, rfl, by simp [engineMove], by simp [resetMove]⟩

theorem witness_UnflattenLoadsTree : refStreams.params.Legal ∧ refStreams.treeValid = false ∧ refStreams.node = [] ∧
    refStreams.shapeLen.toNat ≤ refStreams.params.shapeCap ∧ refStreams.leafLen.toNat ≤ refStreams.params.leafCap ∧
    refStreams.shapeIn = refTree.shape ∧ refStreams.leavesIn = refTree.leaves ∧ refTree.size ≤ refStreams.params.nodeCap := by decide

/-- The same at the boundary: node memory exactly filled (U15). -/
theorem witness_UnflattenLoadsTree_full :
    (withCaps 7 65536 8192 refStreams).shapeIn = refTree.shape ∧ refTree.size = (withCaps 7 65536 8192 refStreams).params.nodeCap ∧
    (withCaps 7 65536 8192 refStreams).params.Legal := by decide

/-- The hypotheses that the statements about UNFLATTEN's data phase share. -/
def PastChecks (s : State) : Prop := s.treeValid = false ∧ s.node.wf ∧ s.shapeLen.toNat ≤ s.params.shapeCap ∧
  s.leafLen.toNat ≤ s.params.leafCap

theorem pastChecks (s : State) (h : s.treeValid = false) (hn : s.node = []) (h1 : s.shapeLen.toNat ≤ s.params.shapeCap)
    (h2 : s.leafLen.toNat ≤ s.params.leafCap) : PastChecks s := ⟨h, by rw [hn]; exact List.Pairwise.nil, h1, h2⟩

/-- Both outcomes are reached: U1 and U6. -/
theorem witness_UnflattenSucceedsExactlyOnWellFormed : PastChecks refStreams ∧ PastChecks (bench (bits [1,0,0,0]) [sA, sB] [] []) ∧
    refStreams.Inv ∧ (bench (bits [1,0,0,0]) [sA, sB] [] []).Inv ∧
    reportOf (exec .unflatten refStreams) = some (0, 0, 0) ∧
    reportOf (exec .unflatten (bench (bits [1,0,0,0]) [sA, sB] [] [])) = some (6, 3, 3) :=
  ⟨pastChecks _ rfl rfl (by decide) (by decide), pastChecks _ rfl rfl (by decide) (by decide), refStreams_inv,
    by apply bench_inv <;> simp [bits, sA, sB], by decide, by decide⟩

theorem incomplete_10 : IncompleteShape (bits [1,0]) := ⟨twinTree, bits [0], by decide, by decide⟩

/-- U3: the shape stream ends. -/
theorem witness_UnflattenStopsInsideTree_ends : PastChecks (bench (bits [1,0]) [sA] [] []) ∧
    (bench (bits [1,0]) [sA] [] []).shapeIn = bits [1,0] ++ [] ∧ IncompleteShape (bits [1,0]) ∧
    zeroBits (bits [1,0]) ≤ (bench (bits [1,0]) [sA] [] []).leavesIn.length ∧ (bits [1,0]).length ≤ State.reset.params.nodeCap :=
  ⟨pastChecks _ rfl rfl (by decide) (by decide), by decide, incomplete_10, by decide, by decide⟩

/-- As U14, with room for three nodes: node memory is full. -/
theorem witness_UnflattenStopsInsideTree_full : PastChecks (withCaps 3 65536 8192 (bench (bits [1,1,0,0,0]) [sA, sB, sC] [] [])) ∧
    (withCaps 3 65536 8192 (bench (bits [1,1,0,0,0]) [sA, sB, sC] [] [])).shapeIn = bits [1,1,0] ++ bits [0,0] ∧
    IncompleteShape (bits [1,1,0]) ∧
    zeroBits (bits [1,1,0]) ≤ (withCaps 3 65536 8192 (bench (bits [1,1,0,0,0]) [sA, sB, sC] [] [])).leavesIn.length ∧
    bits [0,0] ≠ [] ∧ (bits [1,1,0]).length = (withCaps 3 65536 8192 (bench (bits [1,1,0,0,0]) [sA, sB, sC] [] [])).params.nodeCap :=
  ⟨pastChecks _ rfl rfl (by decide) (by decide), by decide, ⟨.node twinTree (.leaf sA), bits [0,0], by decide, by decide⟩, by decide,
    by decide, rfl⟩

/-- U4: a leaf bit finds no symbol. -/
theorem witness_UnflattenStopsInsideTree_leaves : PastChecks (bench (bits [1,0,0]) [sA] [] []) ∧
    (bench (bits [1,0,0]) [sA] [] []).shapeIn = bits [1,0] ++ false :: [] ∧ IncompleteShape (bits [1,0]) ∧
    (bits [1,0]).length < State.reset.params.nodeCap ∧
    zeroBits (bits [1,0]) = (bench (bits [1,0,0]) [sA] [] []).leavesIn.length :=
  ⟨pastChecks _ rfl rfl (by decide) (by decide), by decide, incomplete_10, by decide, by decide⟩

/-- U6: shape bits are left over. -/
theorem witness_UnflattenReportsLeftovers_shape : PastChecks (bench (bits [1,0,0,0]) [sA, sA] [] []) ∧
    (bench (bits [1,0,0,0]) [sA, sA] [] []).shapeIn = twinTree.shape ++ [false] ∧
    (bench (bits [1,0,0,0]) [sA, sA] [] []).leavesIn = twinTree.leaves ++ [] ∧ twinTree.size ≤ State.reset.params.nodeCap :=
  ⟨pastChecks _ rfl rfl (by decide) (by decide), by decide, by decide, by decide⟩

/-- U8: symbols are left over. -/
theorem witness_UnflattenReportsLeftovers_leaves : PastChecks (bench (bits [1,0,0]) [sA, sA, sC] [] []) ∧
    (bench (bits [1,0,0]) [sA, sA, sC] [] []).shapeIn = twinTree.shape ++ [] ∧
    (bench (bits [1,0,0]) [sA, sA, sC] [] []).leavesIn = twinTree.leaves ++ [sC] ∧ twinTree.size ≤ State.reset.params.nodeCap :=
  ⟨pastChecks _ rfl rfl (by decide) (by decide), by decide, by decide, by decide⟩

theorem witness_UnflattenChecksInOrder : refLoaded.treeValid = true ∧
    ({ refStreams with shapeLen := 1025 }.treeValid = false ∧
      { refStreams with shapeLen := 1025 }.params.shapeCap < { refStreams with shapeLen := 1025 }.shapeLen.toNat) ∧
    ({ refStreams with shapeLen := 1024, leafLen := 513 }.treeValid = false ∧
      { refStreams with shapeLen := 1024, leafLen := 513 }.shapeLen.toNat ≤ refStreams.params.shapeCap ∧
      refStreams.params.leafCap < { refStreams with shapeLen := 1024, leafLen := 513 }.leafLen.toNat) := by decide

theorem witness_UnflattenLayoutFollowsStreams : refStreams.Inv ∧
    exec .unflatten refStreams = .next (nextOf (exec .unflatten refStreams)) ∧ (nextOf (exec .unflatten refStreams)).errCause = 0 :=
  ⟨refStreams_inv, goesOn_next _ (by decide), by decide⟩

theorem witness_FlattenWritesTree : refLoaded.params.Legal ∧ refLoaded.HoldsTree refTree ∧ refLoaded.shape.wf ∧ refLoaded.leaves.wf :=
  ⟨by decide, refLoaded_holds, refLoaded_inv.shapeFits.1, refLoaded_inv.leavesFits.1⟩

theorem witness_FlattenReadsNodeMemoryDirectly : refLoaded.Inv ∧ refLoaded.treeValid = true := ⟨refLoaded_inv, rfl⟩

theorem witness_FlattenReleaseUnflattenRestoresTree : refLoaded.Inv ∧ refLoaded.treeValid = true := ⟨refLoaded_inv, rfl⟩

theorem written_below (l : List Bool) (n : Nat) (h : n ≤ l.length) : Memory.Written (Memory.putList [] 0 l) n := fun k hk => by
  rw [cell_putList _ _ _ _ List.Pairwise.nil, if_pos (by omega)]; simp; omega

theorem written_below_syms (l : List Symbol) (n : Nat) (h : n ≤ l.length) : Memory.Written (Memory.putList [] 0 l) n := fun k hk => by
  rw [cell_putList _ _ _ _ List.Pairwise.nil, if_pos (by omega)]; simp; omega

theorem witness_UnflattenFlattenRestoresStreams : refStreams.Inv ∧ refStreams.shape.Written refStreams.shapeLen.toNat ∧
    refStreams.leaves.Written refStreams.leafLen.toNat ∧ exec .unflatten refStreams = .next (nextOf (exec .unflatten refStreams)) ∧
    (nextOf (exec .unflatten refStreams)).errCause = 0 :=
  ⟨refStreams_inv, written_below _ _ (by decide), written_below_syms _ _ (by decide), goesOn_next _ (by decide), by decide⟩

/-- The codes of SET under the reference tree. -/
def setCodes : List (List Bool) := [bits [1,0,1], bits [1,1], bits [0]]

theorem codesOf_set (s : State) (h : s.textIn = [sS, sE, sT]) : CodesOf refTree s.textIn setCodes := by
  rw [h]; unfold CodesOf; decide

/-- N1, with MSG exactly full as in N7. -/
theorem witness_EncodeWritesCodes : (withCaps 511 6 8192 refLoaded).params.Legal ∧ (withCaps 511 6 8192 refLoaded).HoldsTree refTree ∧
    refTree.degenerate = false ∧ (withCaps 511 6 8192 refLoaded).msg.wf ∧
    (withCaps 511 6 8192 refLoaded).textLen.toNat ≤ (withCaps 511 6 8192 refLoaded).params.textCap ∧
    CodesOf refTree (withCaps 511 6 8192 refLoaded).textIn setCodes ∧
    setCodes.flatten.length ≤ (withCaps 511 6 8192 refLoaded).params.msgCap :=
  ⟨by decide, ⟨rfl, rfl, by decide, refLoaded_holds.image⟩, rfl, refLoaded_inv.msgFits.1, by decide, codesOf_set _ (by decide), by decide⟩

/-- The hypotheses on the state that the statements about ENCODE share. -/
def EncodeReady (s : State) : Prop := s.params.Legal ∧ s.HoldsTree refTree ∧ refTree.degenerate = false ∧
  s.textLen.toNat ≤ s.params.textCap

/-- N5: X has no code. -/
theorem witness_EncodeReportsFirstBadSymbol_unknown : EncodeReady (withTree refTree (bench [] [] [] [sT, sE, sX])) ∧
    (withTree refTree (bench [] [] [] [sT, sE, sX])).textIn = [sT, sE] ++ sX :: [] ∧
    CodesOf refTree [sT, sE] [bits [0], bits [1,1]] ∧
    [bits [0], bits [1,1]].flatten.length ≤ (withTree refTree (bench [] [] [] [sT, sE, sX])).params.msgCap ∧
    codeOf refTree.paths sX = none :=
  ⟨⟨by decide, withTree_holds _ _ (by decide) (by decide), rfl, by decide⟩, by decide, by unfold CodesOf; decide, by decide, by decide⟩

/-- As N6: the code of T no longer fits, by one bit. -/
theorem witness_EncodeReportsFirstBadSymbol_full : EncodeReady (withCaps 511 5 8192 refLoaded) ∧
    (withCaps 511 5 8192 refLoaded).textIn = [sS, sE] ++ sT :: [] ∧ CodesOf refTree [sS, sE] [bits [1,0,1], bits [1,1]] ∧
    [bits [1,0,1], bits [1,1]].flatten.length ≤ (withCaps 511 5 8192 refLoaded).params.msgCap ∧
    codeOf refTree.paths sT = some (bits [0]) ∧
    (withCaps 511 5 8192 refLoaded).params.msgCap < [bits [1,0,1], bits [1,1]].flatten.length + (bits [0]).length :=
  ⟨⟨by decide, ⟨rfl, rfl, by decide, refLoaded_holds.image⟩, rfl, by decide⟩, by decide, by unfold CodesOf; decide, by decide, by decide,
    by decide⟩

theorem witness_CodeIsPathOfFirstLeaf : refLoaded.params.Legal ∧ refLoaded.HoldsTree refTree := ⟨by decide, refLoaded_holds⟩

/-- Two codes, T and R, in the message 0, 1, 0, 0, with TEXT exactly full. -/
theorem witness_DecodeWritesSymbols : (withCaps 511 65536 2 refLoaded).params.Legal ∧
    (withCaps 511 65536 2 refLoaded).HoldsTree refTree ∧ refTree.degenerate = false ∧ (withCaps 511 65536 2 refLoaded).text.wf ∧
    (withCaps 511 65536 2 refLoaded).msgLen.toNat ≤ (withCaps 511 65536 2 refLoaded).params.msgCap ∧
    LeavesOf refTree [(sT, bits [0]), (sR, bits [1,0,0])] ∧
    (withCaps 511 65536 2 refLoaded).msgIn = bitsOf [(sT, bits [0]), (sR, bits [1,0,0])] ∧
    [(sT, bits [0]), (sR, bits [1,0,0])].length ≤ (withCaps 511 65536 2 refLoaded).params.textCap :=
  ⟨by decide, ⟨rfl, rfl, by decide, refLoaded_holds.image⟩, rfl, refLoaded_inv.textFits.1, by decide,
    by simp [LeavesOf, refTree, CodeTree.paths, bits], by decide, by decide⟩

/-- The hypotheses on the state that the statements about DECODE share. -/
def DecodeReady (s : State) : Prop := s.params.Legal ∧ s.HoldsTree refTree ∧ refTree.degenerate = false ∧
  s.msgLen.toNat ≤ s.params.msgCap

theorem leavesOf_T : LeavesOf refTree [(sT, bits [0])] := by simp [LeavesOf, refTree, CodeTree.paths, bits]

/-- D5: the message ends inside the code of R or S. -/
theorem witness_DecodeReportsFirstError_unfinished : DecodeReady (withTree refTree (bench [] [] (bits [0,1,0]) [])) ∧
    LeavesOf refTree [(sT, bits [0])] ∧
    (withTree refTree (bench [] [] (bits [0,1,0]) [])).msgIn = bitsOf [(sT, bits [0])] ++ bits [1,0] ∧
    [(sT, bits [0])].length ≤ (withTree refTree (bench [] [] (bits [0,1,0]) [])).params.textCap ∧ UnfinishedCode refTree (bits [1,0]) :=
  ⟨⟨by decide, withTree_holds _ _ (by decide) (by decide), rfl, by decide⟩, leavesOf_T, by decide, by decide, by decide, sR, bits [0],
    by decide, by decide⟩

/-- As D7, with room for one symbol: R has none. -/
theorem witness_DecodeReportsFirstError_full : DecodeReady (withCaps 511 65536 1 refLoaded) ∧ LeavesOf refTree [(sT, bits [0])] ∧
    (withCaps 511 65536 1 refLoaded).msgIn = bitsOf [(sT, bits [0])] ++ bits [1,0,0] ∧
    [(sT, bits [0])].length = (withCaps 511 65536 1 refLoaded).params.textCap ∧ (sR, bits [1,0,0]) ∈ refTree.paths ∧
    bits [1,0,0] = bits [1,0,0] ++ [] :=
  ⟨⟨by decide, ⟨rfl, rfl, by decide, refLoaded_holds.image⟩, rfl, by decide⟩, leavesOf_T, by decide, by decide, by decide, by decide⟩

theorem witness_CodecChecksInOrder : (refLoaded.treeValid = true ∧
      refLoaded.params.textCap < { refLoaded with textLen := 8193 }.textLen.toNat) ∧
    refLoaded.params.msgCap < { refLoaded with msgLen := 65537 }.msgLen.toNat ∧
    (withTree (.leaf sA) refStreams).treeValid = true ∧ (withTree (.leaf sA) refStreams).HoldsTree (.leaf sA) ∧
    (withTree (.leaf sA) refStreams).textLen.toNat ≤ (withTree (.leaf sA) refStreams).params.textCap ∧
    (withTree (.leaf sA) refStreams).msgLen.toNat ≤ (withTree (.leaf sA) refStreams).params.msgCap :=
  ⟨⟨rfl, by decide⟩, by decide, rfl, withTree_holds _ _ (by decide) (by decide), by decide, by decide⟩

theorem witness_EncodeDecodeRestoresText : refLoaded.Inv ∧ refLoaded.HoldsTree refTree ∧ refTree.degenerate = false ∧
    refLoaded.text.Written refLoaded.textLen.toNat ∧
    CodesOf refTree refLoaded.textIn setCodes ∧ setCodes.flatten.length ≤ refLoaded.params.msgCap :=
  ⟨refLoaded_inv, refLoaded_holds, rfl, written_below_syms _ _ (by decide), codesOf_set _ (by decide), by decide⟩

theorem witness_CodesArePrefixFreeAndBounded : refLoaded.params.Legal ∧ refLoaded.HoldsTree refTree ∧ refTree.degenerate = false :=
  ⟨by decide, refLoaded_holds, rfl⟩

theorem witness_ReleaseFreesTree : refLoaded.treeValid = true ∧ State.reset.treeValid = false := ⟨rfl, rfl⟩

theorem witness_CommandsWithoutTreeReportNoTree : State.reset.treeValid = false := rfl

/-- A step that changes the tree: the engine performs RELEASE. -/
theorem witness_OnlyTreeCommandsChangeTree :
    step { refLoaded with pend := some 5 } = .next (nextOf (step { refLoaded with pend := some 5 })) ∧
    (nextOf (step { refLoaded with pend := some 5 })).treeValid ≠ refLoaded.treeValid := ⟨goesOn_next _ (by decide), by decide⟩

theorem witness_InvariantGivesTreeLayout : (refStreams.Inv ∧ refStreams.treeValid = false) ∧ (refLoaded.Inv ∧ refLoaded.treeValid = true) :=
  ⟨⟨refStreams_inv, rfl⟩, refLoaded_inv, rfl⟩

/-- At the boundary: a tree that fills node memory. -/
theorem witness_LoadedTreeIsBounded : (withTree refTree (withCaps 7 65536 8192 refStreams)).HoldsTree refTree :=
  withTree_holds _ _ (by decide) (by decide)

/-- Every command answers a next state somewhere; the hypothesis of CompletionSetsDoneAndIrq, CausesOfEachCommand,
IndexIsZeroWithoutPosition and CommandFrame. -/
theorem witness_exec_next : exec .unflatten refStreams = .next (nextOf (exec .unflatten refStreams)) ∧
    exec .flatten refLoaded = .next (nextOf (exec .flatten refLoaded)) ∧
    exec .encode refLoaded = .next (nextOf (exec .encode refLoaded)) ∧
    exec .decode refLoaded = .next (nextOf (exec .decode refLoaded)) ∧
    exec .release refLoaded = .next (nextOf (exec .release refLoaded)) ∧
    exec (.illegal 0) refLoaded = .next (nextOf (exec (.illegal 0) refLoaded)) :=
  ⟨goesOn_next _ (by decide), goesOn_next _ (by decide), goesOn_next _ (by decide), goesOn_next _ (by decide), rfl, rfl⟩

theorem witness_OutputsLeaveHigherCells : refLoaded.Inv ∧ (nextOf (exec .flatten refLoaded)).errCause = 0 ∧
    (nextOf (exec .encode refLoaded)).errCause = 0 ∧ (nextOf (exec .decode refLoaded)).errCause = 0 := ⟨refLoaded_inv, by decide⟩

/-- A cell just past each length register is changed. -/
theorem witness_CellsPastLengthDoNotMatter :
    (∀ k, k < refStreams.shapeLen.toNat → (refStreams.shape.put 7 true).cell k = refStreams.shape.cell k) ∧
    (∀ k, k < refStreams.leafLen.toNat → (refStreams.leaves.put 4 sX).cell k = refStreams.leaves.cell k) ∧
    (∀ k, k < refLoaded.textLen.toNat → (refLoaded.text.put 3 sX).cell k = refLoaded.text.cell k) ∧
    (∀ k, k < refLoaded.msgLen.toNat → (refLoaded.msg.put 4 true).cell k = refLoaded.msg.cell k) := by decide

/-- The last cell of each input. -/
theorem witness_InputsReadWrittenCells : (6 < refStreams.shapeLen.toNat ∧ refStreams.shape.cell 6 = some false) ∧
    (3 < refStreams.leafLen.toNat ∧ refStreams.leaves.cell 3 = some sE) ∧
    (2 < refLoaded.textLen.toNat ∧ refLoaded.text.cell 2 = some sT) ∧
    (3 < refLoaded.msgLen.toNat ∧ refLoaded.msg.cell 3 = some false) := by decide

/-- The hypotheses of StepKeepsInvariant, and of ParametersNeverChange. -/
theorem witness_StepKeepsInvariant : busyState.Inv ∧ step busyState = .next (nextOf (step busyState)) :=
  ⟨busyState_inv, goesOn_next _ (by decide)⟩

theorem witness_CommandsAlwaysEndUnderInvariant : refLoaded.Inv := refLoaded_inv

theorem witness_WrWhileBusyIsSticky :
    (nextOf (step { State.reset with wrWhileBusy := true, agenda := [.write (at20 0x24) 0x10] })).wrWhileBusy = false ∧
    goesOn (step { State.reset with wrWhileBusy := true, agenda := [.write (at20 0x24) 0x10] }) = true := by decide

theorem witness_CmdWriteIssuesCommand : (at20 0x28).ok = true ∧ blockAddr (at20 0x28).addr = 0x00028 ∧ State.reset.busy = false ∧
    busyState.busy = true := by decide

/-- The last words of the register block and of the last window. -/
theorem witness_BusyWriteIsDropped : (at20 0x0FFFC).ok = true ∧ (at20 0x5FFFC).ok = true ∧ busyState.busy = true ∧
    blockAddr (at20 0x0FFFC).addr ≠ 0x00020 ∧ blockAddr (at20 0x0FFFC).addr ≠ 0x00024 ∧
    blockAddr (at20 0x5FFFC).addr ≠ 0x00020 ∧ blockAddr (at20 0x5FFFC).addr ≠ 0x00024 ∧
    blockAddr (at20 0x20).addr = 0x00020 ∧ blockAddr (at20 0x24).addr = 0x00024 := by decide

theorem witness_CtrlRegister : (at20 0x20).ok = true ∧ blockAddr (at20 0x20).addr = 0x00020 ∧ (3 : Word).getLsbD 1 = true ∧
    (1 : Word).getLsbD 1 = false ∧ { State.reset with irqEn := true }.irqEn = true := by decide

theorem witness_StatusRegister : (at20 0x24).ok = true ∧ blockAddr (at20 0x24).addr = 0x00024 := by decide

theorem witness_LengthRegisters : (at20 0x40).ok = true ∧ State.reset.busy = false ∧ blockAddr (at20 0x40).addr = 0x00040 ∧
    blockAddr (at20 0x44).addr = 0x00044 ∧ blockAddr (at20 0x48).addr = 0x00048 ∧ blockAddr (at20 0x4C).addr = 0x0004C := by decide

theorem witness_ReadOnlyRegisters : State.reset.params.Legal ∧ (at20 0).ok = true ∧ State.reset.busy = false ∧
    blockAddr (at20 0).addr = 0 ∧ blockAddr (at20 4).addr = 4 ∧ blockAddr (at20 8).addr = 8 ∧ blockAddr (at20 0xC).addr = 0xC ∧
    blockAddr (at20 0x10).addr = 0x10 ∧ blockAddr (at20 0x14).addr = 0x14 ∧ blockAddr (at20 0x18).addr = 0x18 ∧
    blockAddr (at20 0x2C).addr = 0x2C ∧ blockAddr (at20 0x30).addr = 0x30 ∧ blockAddr (at20 0x34).addr = 0x34 ∧
    blockAddr (at20 0x50).addr = 0x50 := by decide

/-- The first and last unmapped words, and reserved offsets among and past the registers. -/
theorem witness_UnmappedReadsZeroIgnoresWrites : (at20 0x60000).ok = true ∧ 0x60000 ≤ (blockAddr (at20 0x60000).addr).toNat ∧
    0x60000 ≤ (blockAddr (at20 0xFFFFC).addr).toNat ∧ regAt (blockAddr (at20 0x1C).addr).toNat = none ∧
    regAt (blockAddr (at20 0x38).addr).toNat = none ∧ regAt (blockAddr (at20 0x54).addr).toNat = none ∧
    ((blockAddr (at20 0xFFFC).addr).toNat < 0x10000 ∧ regAt (blockAddr (at20 0xFFFC).addr).toNat = none) := by decide

/-- The reserved offsets next to the registers of R34's table, and the last of the region. -/
theorem witness_UnmappedReadsZeroIgnoresWrites_reserved : ∀ o ∈ [0x1C, 0x38, 0x3C, 0x54, 0xFFFC],
    (at20 o).ok = true ∧ (blockAddr (at20 o).addr).toNat < 0x10000 ∧
    (blockAddr (at20 o).addr).toNat ∉ ([0x000, 0x004, 0x008, 0x00C, 0x010, 0x014, 0x018, 0x020, 0x024, 0x028, 0x02C, 0x030, 0x034,
      0x040, 0x044, 0x048, 0x04C, 0x050] : List Nat) := by decide

/-- The first and the last word of each bit window, and the words about the capacity of SHAPE. -/
theorem witness_BitWindows : (at20 0x10000).ok = true ∧ refLoaded.busy = false ∧
    blockAddr (at20 0x10000).addr = BitVec.ofNat 20 (0x10000 + 4 * 0) ∧
    blockAddr (at20 0x1FFFC).addr = BitVec.ofNat 20 (0x10000 + 4 * (2 ^ 14 - 1)) ∧
    blockAddr (at20 0x30000).addr = BitVec.ofNat 20 (0x30000 + 4 * 0) ∧
    blockAddr (at20 0x3FFFC).addr = BitVec.ofNat 20 (0x30000 + 4 * (2 ^ 14 - 1)) ∧
    refLoaded.params.shapeCap ≤ 32 * 32 + 0 ∧ 32 * 31 + 31 < refLoaded.params.shapeCap ∧
    (32 * 0 + 3 < refLoaded.params.msgCap ∧ refLoaded.msg.cell (32 * 0 + 3) = some false) := by decide

theorem witness_BitWindows_wf : refLoaded.shape.wf ∧ refLoaded.msg.wf := ⟨refLoaded_inv.shapeFits.1, refLoaded_inv.msgFits.1⟩

/-- The first and the last word of each symbol window, and the words about the capacity of LEAVES. -/
theorem witness_SymbolWindows : (at20 0x20000).ok = true ∧ refStreams.busy = false ∧ refStreams.params.Legal ∧
    blockAddr (at20 0x20000).addr = BitVec.ofNat 20 (0x20000 + 4 * 0) ∧
    blockAddr (at20 0x2FFFC).addr = BitVec.ofNat 20 (0x20000 + 4 * (2 ^ 14 - 1)) ∧
    blockAddr (at20 0x40000).addr = BitVec.ofNat 20 (0x40000 + 4 * 0) ∧
    blockAddr (at20 0x4FFFC).addr = BitVec.ofNat 20 (0x40000 + 4 * (2 ^ 14 - 1)) ∧
    refStreams.params.leafCap ≤ 512 ∧ 511 < refStreams.params.leafCap ∧ refStreams.params.textCap ≤ 8192 ∧
    (3 < refStreams.params.leafCap ∧ refStreams.leaves.cell 3 = some sE) ∧
    (511 < refStreams.params.leafCap ∧ refStreams.leaves.cell 511 = none) ∧
    (8191 < refStreams.params.textCap ∧ refStreams.text.cell 8191 = none) := by decide

theorem witness_SymbolWindows_wf : refStreams.leaves.wf ∧ refStreams.text.wf := ⟨refStreams_inv.leavesFits.1, refStreams_inv.textFits.1⟩

/-- The first and the last word of the node window, and entries of both kinds. -/
theorem witness_NodeWindow : (at20 0x50000).ok = true ∧ refLoaded.busy = false ∧
    blockAddr (at20 0x50000).addr = BitVec.ofNat 20 (0x50000 + 4 * 0) ∧
    blockAddr (at20 0x5FFFC).addr = BitVec.ofNat 20 (0x50000 + 4 * (2 ^ 14 - 1)) ∧
    refLoaded.params.nodeCap ≤ 511 ∧ (510 < refLoaded.params.nodeCap ∧ refLoaded.node.cell 510 = none) ∧ refLoaded.node.cell 6 = some (.leaf sE) ∧ refLoaded.node.cell 0 = some (.internal 1 2) := by decide

/-- A busy state, and the first and last addresses of each clause. -/
theorem witness_BusyReads : busyState.Inv ∧ busyState.busy = true ∧ (at20 0x5FFFC).ok = true ∧
    blockAddr (at20 0x40).addr = 0x00040 ∧ blockAddr (at20 0x50).addr = 0x00050 ∧
    0x10000 ≤ (blockAddr (at20 0x10000).addr).toNat ∧ (blockAddr (at20 0x5FFFC).addr).toNat < 0x60000 ∧
    blockAddr (at20 0x2C).addr = 0x0002C ∧ blockAddr (at20 0x34).addr = 0x00034 :=
  ⟨busyState_inv, by decide, by decide, by decide, by decide, by decide, by decide, by decide, by decide⟩

theorem witness_MisalignedAccessFaults : (at20 0x10002).addr % 4 ≠ 0 ∧ (⟨0x10000, 2, 0x3⟩ : Access).size ≠ 4 ∧
    (⟨0x10000, 4, 0x7⟩ : Access).lanes ≠ 0xF := by decide

theorem witness_IrqFollowsEnableAndDone : (at20 0x28).ok = true ∧
    hostWrite (at20 0x28) 1 State.reset = .next (nextOf (hostWrite (at20 0x28) 1 State.reset)) ∧
    hostWrite (at20 0x24) 2 State.reset = .next (nextOf (hostWrite (at20 0x24) 2 State.reset)) ∧ (2 : Word).getLsbD 1 = true ∧
    hostWrite (at20 0x20) 1 State.reset = .next (nextOf (hostWrite (at20 0x20) 1 State.reset)) ∧ (1 : Word).getLsbD 1 = false :=
  ⟨rfl, rfl, rfl, rfl, rfl, rfl⟩

end Sys2Proof.Tests
end

section
/-! PROOF. The scope of the unflattener: which streams UNFLATTEN loads (R20, R140), and how large a loaded tree can be (R8, R21). -/

open Sys2Proof

namespace Sys2Proof.Machine

/-! ### UNFLATTEN -/

/-- UNFLATTEN past its checks, when its data phase builds a tree. -/
theorem unfl_ok (s : State) (n : Nat) (node : Memory Node) (hv : s.treeValid = false) (h1 : s.shapeLen.toNat ≤ s.params.shapeCap)
    (h2 : s.leafLen.toNat ≤ s.params.leafCap)
    (h : unflattenStreams s.params.nodeCap s.node s.shapeIn s.leavesIn = .ok (n, node)) :
    exec .unflatten s = .next (complete { s with node := node, nodeCount := BitVec.ofNat 32 n, treeValid := true
                                                 draws := drawnByUnflatten s }) := by
  simp only [exec, execUnflatten, hv, Bool.false_eq_true, if_false, h]
  rw [if_neg (by omega), if_neg (by omega)]

/-- The data phase succeeds only on the flattened form of a tree that fits node memory: any other stream has something left over or stops
inside a tree. -/
theorem wellFormedPair_of_unflattenStreams_ok {cap : Nat} {m : Memory Node} {sh : List Bool} {lv : List Symbol} {p : Nat × Memory Node}
    (hw : m.wf) (h : unflattenStreams cap m sh lv = .ok p) : WellFormedPair sh lv ∧ sh.length ≤ cap := by
  rcases unflattenStreams_cases cap m sh lv hw with ⟨t, r, ls, rfl, rfl, hc⟩ | ⟨_, _, _, _, _, _, _, _, herr⟩
  · rw [unflattenStreams_tree cap m t r ls hw hc] at h
    split at h
    · cases h
    · split at h
      · cases h
      · next hr hls =>
        obtain rfl := not_ne_iff.mp hr
        obtain rfl := not_ne_iff.mp hls
        exact ⟨⟨t, by simp, by simp⟩, by simpa using hc⟩
  · rw [herr] at h
    cases h

/-- The data phase raises no error on the flattened form of a tree that fits node memory. -/
theorem unflattenStreams_ne_error {cap : Nat} {m : Memory Node} {sh : List Bool} {lv : List Symbol} {r : Report}
    (hw : m.wf) (hp : WellFormedPair sh lv) (hc : sh.length ≤ cap) : unflattenStreams cap m sh lv ≠ .error r := by
  obtain ⟨t, rfl, rfl⟩ := hp
  have hok := unflattenStreams_tree cap m t [] [] hw (by simpa using hc)
  simp only [List.append_nil] at hok
  simp [hok]

/-- Settles O13: past the checks the two ends of the data phase are the two outcomes, and it builds a tree exactly on the flattened form of
one that fits. -/
theorem unflattenSucceedsExactlyOnWellFormed : Obligations.UnflattenSucceedsExactlyOnWellFormed := by
  intro s hI hv h1 h2
  have hw : s.node.wf := hI.nodeFits.1
  cases h : unflattenStreams s.params.nodeCap s.node s.shapeIn s.leavesIn with
  | ok p =>
    refine ⟨_, unfl_ok s p.1 p.2 hv h1 h2 h, ?_, ?_⟩
    · simpa using wellFormedPair_of_unflattenStreams_ok hw h
    · simp
  | error r =>
    have hcode : r.cause.code = 0x06 ∨ r.cause.code = 0x09 := by
      rcases unfl_causes _ _ _ _ _ h with ⟨hr, -⟩ | ⟨hr, -⟩ <;> simp [hr, Cause.code]
    have hne : r.cause.code ≠ 0 := by rcases hcode with hr | hr <;> simp [hr]
    refine ⟨_, unfl_err s r hv h1 h2 h, ?_, fun _ => ⟨hcode, ?_⟩⟩
    · exact iff_of_false hne fun ⟨hp, hc⟩ => unflattenStreams_ne_error hw hp hc h
    · simp only [raiseError, ended, BitVec.ofNat_toNat, BitVec.setWidth_eq]

/-! ### The size of a loaded tree -/

/-- Settles O34: a tree of `n` nodes has `(n + 1) / 2` leaves and depth at most `(n - 1) / 2`, and a loaded tree has at most NODE_CAP nodes. -/
theorem loadedTreeIsBounded : Obligations.LoadedTreeIsBounded := by
  intro s t ht
  have hsize := t.size_succ
  have hdepth := t.depth_bound
  have hcount := ht.count
  have hfits := ht.fits
  simp only [Params.maxLeaves, Params.maxDepth]
  omega

end Sys2Proof.Machine
end

section
/-! PROOF. What a step and a command can do (R10, R122), and from it the invariant of R60 over every step. -/

open Sys2Proof

namespace Sys2Proof.Machine

/-! ### What one step can do -/

/-- The state a step's move finds: the move is taken off the agenda. -/
def State.moved (s : State) : State := { s with agenda := s.agenda.tail }

/-- Everything one step that goes on can do, with the guards of each move. -/
inductive StepMove (s : State) : State → Prop where
  | idle (hm : engineMove s.agenda) (hp : s.pend = none) : StepMove s s.moved
  | command (w : Word) (u : State) (hm : engineMove s.agenda) (hp : s.pend = some w)
      (hx : exec (decode w) s.moved = .next u) : StepMove s u
  | reset (rest : List Event) (hm : s.agenda = .reset :: rest) : StepMove s (resetState s.moved)
  | read (a : Access) (rest : List Event) (x : Word) (hm : s.agenda = .read a :: rest) (ha : a.ok = true) :
      StepMove s { s.moved with rdata := some x, draws := s.draws + 1 }
  | write (a : Access) (v : Word) (rest : List Event) (hm : s.agenda = .write a v :: rest) (ha : a.ok = true) :
      StepMove s (writeWord s.moved (blockAddr a.addr) v)

/-- A step with the engine's move is the engine's step on the state the move finds. -/
theorem stepMove_of_engineStep {s u : State} (hm : engineMove s.agenda) (h : engineStep s.moved = .next u) : StepMove s u := by
  have hpend : s.moved.pend = s.pend := rfl
  cases hp : s.pend with
  | none =>
    simp only [engineStep, hpend, hp, Host.Outcome.next.injEq] at h
    subst h
    exact .idle hm hp
  | some w =>
    simp only [engineStep, hpend, hp] at h
    exact .command w u hm hp h

theorem stepMove_of_hostRead {s u : State} {a : Access} {rest : List Event} (hm : s.agenda = .read a :: rest)
    (h : hostRead a s.moved = .next u) : StepMove s u := by
  unfold hostRead at h
  split at h
  next ha => cases h; exact .read a rest _ hm ha
  next => cases h

theorem stepMove_of_hostWrite {s u : State} {a : Access} {v : Word} {rest : List Event} (hm : s.agenda = .write a v :: rest)
    (h : hostWrite a v s.moved = .next u) : StepMove s u := by
  unfold hostWrite at h
  split at h
  next ha => cases h; exact .write a v rest hm ha
  next => cases h

/-- Every step that goes on is one of the moves. -/
theorem stepMove_of_step {s u : State} (h : step s = .next u) : StepMove s u := by
  unfold step at h
  split at h
  next hm =>
    have hs : s.moved = s := by simp only [State.moved, hm, List.tail_nil]; rw [← hm]
    exact stepMove_of_engineStep (.inl hm) (by rw [hs]; exact h)
  next e rest hm =>
    have hs : { s with agenda := rest } = s.moved := by simp only [State.moved, hm, List.tail_cons]
    rw [hs] at h
    cases e with
    | engine => exact stepMove_of_engineStep (.inr ⟨rest, hm⟩) h
    | reset => cases h; exact .reset rest hm
    | read a => exact stepMove_of_hostRead hm h
    | write a v => exact stepMove_of_hostWrite hm h

/-! ### What one command can do -/

/-- Everything a command that ends can do, with what its data phase answered. An error of the check phase, and an illegal word, only raise
their report. -/
inductive CommandEnd (s : State) : Instr → State → Prop where
  | report (i : Instr) (r : Report) : CommandEnd s i (raiseError r s)
  | unflattened (n : Nat) (m : Memory Node) (hv : s.treeValid = false)
      (h : unflattenStreams s.params.nodeCap s.node s.shapeIn s.leavesIn = .ok (n, m)) :
      CommandEnd s .unflatten
        (complete { s with node := m, nodeCount := BitVec.ofNat 32 n, treeValid := true, draws := drawnByUnflatten s })
  | unflattenError (r : Report) (hv : s.treeValid = false)
      (h : unflattenStreams s.params.nodeCap s.node s.shapeIn s.leavesIn = .error r) :
      CommandEnd s .unflatten (raiseError r { s with node := [], draws := drawnByUnflatten s })
  | flattened (sh : List Bool) (lv : List Symbol) (hv : s.treeValid = true) (h : s.flatRoot = some (sh, lv)) :
      CommandEnd s .flatten
        (complete { s with shape := s.shape.putList 0 sh, shapeLen := BitVec.ofNat 32 sh.length
                           leaves := s.leaves.putList 0 lv, leafLen := BitVec.ofNat 32 lv.length })
  | encoded (table : List (Symbol × List Bool)) (out : List Bool)
      (h : encodeText table s.params.msgCap 0 s.textIn [] = .ok out) :
      CommandEnd s .encode
        (complete { s with msg := s.msg.putList 0 out, msgLen := BitVec.ofNat 32 out.length, draws := drawnByEncode s })
  | encodeError (table : List (Symbol × List Bool)) (r : Report)
      (h : encodeText table s.params.msgCap 0 s.textIn [] = .error r) :
      CommandEnd s .encode (raiseError r { s with msg := [], msgLen := 0, draws := drawnByEncode s })
  | decoded (out : List Symbol) (hv : s.treeValid = true)
      (h : decodeBits s.node s.params.textCap 0 s.msgIn 0 0 [] = .ok out) :
      CommandEnd s .decode
        (complete { s with text := s.text.putList 0 out, textLen := BitVec.ofNat 32 out.length, draws := drawnByDecode s })
  | decodeError (r : Report) (hv : s.treeValid = true)
      (h : decodeBits s.node s.params.textCap 0 s.msgIn 0 0 [] = .error (.raise r)) :
      CommandEnd s .decode (raiseError r { s with text := [], textLen := 0, draws := drawnByDecode s })
  | released (hv : s.treeValid = true) :
      CommandEnd s .release (complete { s with treeValid := false, nodeCount := 0, node := [] })

theorem commandEnd_of_execUnflatten {s u : State} (h : execUnflatten s = .next u) : CommandEnd s .unflatten u := by
  unfold execUnflatten at h
  split at h
  next => cases h; exact .report _ _
  next hv =>
    rw [Bool.not_eq_true] at hv
    split at h
    next => cases h; exact .report _ _
    next =>
      split at h
      next => cases h; exact .report _ _
      next =>
        split at h
        next r herr => cases h; exact .unflattenError r hv herr
        next n m hok => cases h; exact .unflattened n m hv hok

theorem commandEnd_of_execFlatten {s u : State} (h : execFlatten s = .next u) : CommandEnd s .flatten u := by
  unfold execFlatten at h
  split at h
  next => cases h; exact .report _ _
  next hv =>
    rw [Bool.not_eq_false] at hv
    split at h
    next => cases h
    next sh lv hroot => cases h; exact .flattened sh lv hv hroot

theorem commandEnd_encodeWith (s : State) (table : List (Symbol × List Bool)) : CommandEnd s .encode (encodeWith table s) := by
  unfold encodeWith
  split
  next r herr => exact .encodeError table r herr
  next out hok => exact .encoded table out hok

theorem commandEnd_of_execEncode {s u : State} (h : execEncode s = .next u) : CommandEnd s .encode u := by
  unfold execEncode at h
  split at h
  next => cases h; exact .report _ _
  next =>
    split at h
    next => cases h; exact .report _ _
    next =>
      split at h
      next => cases h
      next => cases h; exact .report _ _
      next =>
        split at h
        next => cases h
        next table _ => cases h; exact commandEnd_encodeWith s table

theorem commandEnd_of_execDecode {s u : State} (h : execDecode s = .next u) : CommandEnd s .decode u := by
  unfold execDecode at h
  split at h
  next => cases h; exact .report _ _
  next hv =>
    rw [Bool.not_eq_false] at hv
    split at h
    next => cases h; exact .report _ _
    next =>
      split at h
      next => cases h
      next => cases h; exact .report _ _
      next =>
        split at h
        next => cases h
        next r herr => cases h; exact .decodeError r hv herr
        next out hok => cases h; exact .decoded out hv hok

theorem commandEnd_of_execRelease {s u : State} (h : execRelease s = .next u) : CommandEnd s .release u := by
  unfold execRelease at h
  split at h
  next => cases h; exact .report _ _
  next hv => cases h; exact .released (by simpa using hv)

/-- Every command that ends does so in one of the listed ways. -/
theorem commandEnd_of_exec {s u : State} {i : Instr} (h : exec i s = .next u) : CommandEnd s i u := by
  cases i with
  | unflatten => exact commandEnd_of_execUnflatten h
  | flatten => exact commandEnd_of_execFlatten h
  | encode => exact commandEnd_of_execEncode h
  | decode => exact commandEnd_of_execDecode h
  | release => exact commandEnd_of_execRelease h
  | illegal w => cases h; exact .report _ _

/-! ### What the data phases give out -/

/-- What UNFLATTEN's data phase builds: the tree its streams are the flattened form of, written from index 0 on (R140). -/
theorem tree_of_unflattenStreams_ok {cap n : Nat} {m m' : Memory Node} {sh : List Bool} {lv : List Symbol} (hw : m.wf)
    (h : unflattenStreams cap m sh lv = .ok (n, m')) :
    ∃ t : CodeTree, lv = t.leaves ∧ t.size ≤ cap ∧ n = t.size ∧ m' = m.putList 0 (t.layout 0) := by
  obtain ⟨⟨t, rfl, rfl⟩, hc⟩ := wellFormedPair_of_unflattenStreams_ok hw h
  rw [CodeTree.shape_length] at hc
  have hok := unflattenStreams_tree cap m t [] [] hw hc
  simp only [List.append_nil, h, ne_eq, not_true_eq_false, if_false, Except.ok.injEq, Prod.mk.injEq] at hok
  exact ⟨t, rfl, hc, hok.1, hok.2⟩

/-- ENCODE's output stays within the capacity (R162). -/
theorem encodeText_length_le {table : List (Symbol × List Bool)} {cap i : Nat} {xs : List Symbol} {out out' : List Bool}
    (h : encodeText table cap i xs out = .ok out') (hout : out.length ≤ cap) : out'.length ≤ cap := by
  induction xs generalizing i out with
  | nil => cases h; exact hout
  | cons x xs ih =>
    simp only [encodeText] at h
    split at h
    next => cases h
    next p _ =>
      split at h
      next => cases h
      next hfit => exact ih h (by rw [List.length_append]; omega)

/-- DECODE's output stays within the capacity, and every symbol it adds stands in a leaf entry of node memory (R163). -/
theorem decodeBits_out {m : Memory Node} {cap j start : Nat} {bs : List Bool} {cur : NodeIdx} {out out' : List Symbol}
    (h : decodeBits m cap j bs cur start out = .ok out') (hlen : out.length ≤ cap)
    (hout : ∀ x ∈ out, ∃ k, m.cell k = some (.leaf x)) :
    out'.length ≤ cap ∧ ∀ x ∈ out', ∃ k, m.cell k = some (.leaf x) := by
  induction bs generalizing j cur start out with
  | nil =>
    simp only [decodeBits] at h
    split at h
    next => cases h
    next => cases h; exact ⟨hlen, hout⟩
  | cons b bs ih =>
    simp only [decodeBits] at h
    split at h
    next => cases h
    next => cases h
    next z o _ =>
      split at h
      next => cases h
      next y hy =>
        split at h
        next => cases h
        next hroom =>
          refine ih h (by rw [List.length_append, List.length_singleton]; omega) fun x hx => ?_
          rcases List.mem_append.mp hx with hx | hx
          · exact hout x hx
          · exact ⟨_, by rw [List.mem_singleton.mp hx]; exact hy⟩
      next => exact ih h hlen hout

/-- A leaf entry of a loaded tree holds a symbol of the tree. -/
theorem State.HoldsTree.leaf_mem {s : State} {t : CodeTree} (ht : s.HoldsTree t) {k : Nat} {x : Symbol}
    (h : s.node.cell k = some (.leaf x)) : x ∈ t.leaves := by
  rw [ht.image k] at h
  rw [layout_leaves t 0, List.mem_filterMap]
  exact ⟨.leaf x, List.mem_of_getElem? h, rfl⟩

/-! ### The invariant over a command -/

/-- An output written from position 0 on keeps a buffer within the capacity it fits in. -/
theorem fits_output {α : Type} {cap : Nat} {m : Memory α} {vs : List α} (h : m.Fits cap) (hlen : vs.length ≤ cap) :
    (m.putList 0 vs).Fits cap :=
  fits_putList cap 0 m vs h (.inl (by omega))

theorem Cause.code_le (c : Cause) : c.code.toNat ≤ 9 := by cases c <;> decide

/-- A memory that a tree is written into from empty holds exactly the tree's layout. -/
theorem holdsTree_of_written {s : State} {t : CodeTree} (hl : s.params.Legal) (hc : t.size ≤ s.params.nodeCap)
    (hv : s.treeValid = true) (hn : s.nodeCount = BitVec.ofNat 32 t.size)
    (hm : s.node = Memory.putList [] 0 (t.layout 0)) : s.HoldsTree t where
  valid := hv
  count := by
    have := hl.2.1.2
    rw [hn, BitVec.toNat_ofNat]
    omega
  fits := hc
  image k := by
    rw [hm, cell_putList _ _ _ _ List.Pairwise.nil]
    split
    next => simp
    next hk => simpa using hk

/-- A successful command that gives the tree slot new contents keeps the invariant when the contents meet the tree's part of it. -/
theorem inv_complete_slot {s : State} (hI : s.Inv) (m : Memory Node) (c : Word) (v : Bool) (d : Nat) (hfit : m.Fits s.params.nodeCap)
    (hno : v = false → c = 0 ∧ m = [])
    (htree : v = true → ∃ t, (complete { s with node := m, nodeCount := c, treeValid := v, draws := d }).HoldsTree t ∧
      ∀ x ∈ t.leaves, x.toNat < 2 ^ s.params.symW) :
    (complete { s with node := m, nodeCount := c, treeValid := v, draws := d }).Inv where
  legal := hI.legal
  shapeFits := hI.shapeFits
  leavesFits := hI.leavesFits
  msgFits := hI.msgFits
  textFits := hI.textFits
  nodeFits := hfit
  leavesSyms := hI.leavesSyms
  textSyms := hI.textSyms
  cause := Nat.zero_le 9
  noTree := hno
  tree := htree
  busyClear h := by cases h

theorem inv_unflattened {s : State} (hI : s.Inv) {n : Nat} {m : Memory Node} (hv : s.treeValid = false)
    (h : unflattenStreams s.params.nodeCap s.node s.shapeIn s.leavesIn = .ok (n, m)) :
    (complete { s with node := m, nodeCount := BitVec.ofNat 32 n, treeValid := true, draws := drawnByUnflatten s }).Inv := by
  obtain ⟨t, hlv, hc, rfl, rfl⟩ := tree_of_unflattenStreams_ok hI.nodeFits.1 h
  have hempty : s.node = [] := (hI.noTree hv).2
  have hsyms : ∀ x ∈ t.leaves, x.toNat < 2 ^ s.params.symW := by
    rw [← hlv]
    exact symStream_lt _ _ _ _ hI.legal.1.2 hI.leavesSyms
  refine inv_complete_slot hI _ _ _ _ ?_ nofun fun _ => ⟨t, ?_, hsyms⟩
  · exact fits_output hI.nodeFits ((t.layout_length 0).trans_le hc)
  · exact holdsTree_of_written hI.legal hc rfl rfl (by simp only [complete_node, hempty])

theorem inv_flattened {s : State} (hI : s.Inv) {sh : List Bool} {lv : List Symbol} (hv : s.treeValid = true)
    (h : s.flatRoot = some (sh, lv)) :
    (complete { s with shape := s.shape.putList 0 sh, shapeLen := BitVec.ofNat 32 sh.length
                       leaves := s.leaves.putList 0 lv, leafLen := BitVec.ofNat 32 lv.length }).Inv := by
  obtain ⟨t, ht, hsyms⟩ := hI.tree hv
  obtain ⟨rfl, rfl⟩ : t.shape = sh ∧ t.leaves = lv := by simpa [ht.flatRoot hI.legal] using h
  have hsize := t.size_succ
  have hfits := ht.fits
  obtain ⟨-, -, ⟨hshapeCap, -⟩, ⟨hleafCap, -⟩, -⟩ := hI.legal
  have hshape : t.shape.length ≤ s.params.shapeCap := by rw [CodeTree.shape_length]; omega
  have hleaves : t.leaves.length ≤ s.params.leafCap := by rw [CodeTree.leaves_length]; omega
  exact inv_same_tree hI rfl rfl rfl rfl (fits_output hI.shapeFits hshape) (fits_output hI.leavesFits hleaves) hI.msgFits hI.textFits
    (symsFit_putList _ _ _ hI.leavesFits.1 hI.leavesSyms hsyms) hI.textSyms (Nat.zero_le 9) nofun

theorem inv_decoded {s : State} (hI : s.Inv) {out : List Symbol} (hv : s.treeValid = true)
    (h : decodeBits s.node s.params.textCap 0 s.msgIn 0 0 [] = .ok out) :
    (complete { s with text := s.text.putList 0 out, textLen := BitVec.ofNat 32 out.length, draws := drawnByDecode s }).Inv := by
  obtain ⟨t, ht, hsyms⟩ := hI.tree hv
  obtain ⟨hlen, hleaf⟩ := decodeBits_out h (Nat.zero_le _) nofun
  have hout : ∀ x ∈ out, x.toNat < 2 ^ s.params.symW := by
    intro x hx
    obtain ⟨k, hk⟩ := hleaf x hx
    exact hsyms x (ht.leaf_mem hk)
  exact inv_same_tree hI rfl rfl rfl rfl hI.shapeFits hI.leavesFits hI.msgFits (fits_output hI.textFits hlen) hI.leavesSyms
    (symsFit_putList _ _ _ hI.textFits.1 hI.textSyms hout) (Nat.zero_le 9) nofun

/-- Every command keeps the invariant. -/
theorem inv_of_exec {s u : State} {i : Instr} (hI : s.Inv) (h : exec i s = .next u) : u.Inv := by
  cases commandEnd_of_exec h with
  | report i r =>
    exact inv_same_tree hI rfl rfl rfl rfl hI.shapeFits hI.leavesFits hI.msgFits hI.textFits hI.leavesSyms hI.textSyms
      r.cause.code_le nofun
  | unflattened n m hv hok => exact inv_unflattened hI hv hok
  | unflattenError r hv _ =>
    exact inv_same_tree hI rfl rfl rfl (hI.noTree hv).2.symm hI.shapeFits hI.leavesFits hI.msgFits hI.textFits hI.leavesSyms
      hI.textSyms r.cause.code_le nofun
  | flattened sh lv hv hroot => exact inv_flattened hI hv hroot
  | encoded _ out hok =>
    have hlen : out.length ≤ s.params.msgCap := encodeText_length_le hok (Nat.zero_le _)
    exact inv_same_tree hI rfl rfl rfl rfl hI.shapeFits hI.leavesFits (fits_output hI.msgFits hlen) hI.textFits hI.leavesSyms
      hI.textSyms (Nat.zero_le 9) nofun
  | encodeError _ r _ =>
    exact inv_same_tree hI rfl rfl rfl rfl hI.shapeFits hI.leavesFits (fits_nil _) hI.textFits hI.leavesSyms hI.textSyms
      r.cause.code_le nofun
  | decoded out hv hok => exact inv_decoded hI hv hok
  | decodeError r _ _ =>
    exact inv_same_tree hI rfl rfl rfl rfl hI.shapeFits hI.leavesFits hI.msgFits (fits_nil _) hI.leavesSyms (symsFit_nil _)
      r.cause.code_le nofun
  | released hv => exact inv_complete_slot hI [] 0 false s.draws (fits_nil _) (fun _ => ⟨rfl, rfl⟩) nofun

/-- A host read keeps the invariant: it changes only fields that play no part in it. -/
theorem inv_read {s : State} (hI : s.Inv) (x : Word) (d : Nat) : State.Inv { s with rdata := some x, draws := d } :=
  inv_same_tree hI rfl rfl rfl rfl hI.shapeFits hI.leavesFits hI.msgFits hI.textFits hI.leavesSyms hI.textSyms hI.cause hI.busyClear

/-- Settles O42: each move keeps the invariant, whichever agent makes it. -/
theorem stepKeepsInvariant : Obligations.StepKeepsInvariant := by
  intro s u hI h
  have hmoved : s.moved.Inv := inv_agenda hI _
  cases stepMove_of_step h with
  | idle => exact hmoved
  | command w u _ _ hx => exact inv_of_exec hmoved hx
  | reset => exact reset_inv _ hmoved
  | read => exact inv_read hmoved _ _
  | write a v => exact write_inv _ _ v hmoved

end Sys2Proof.Machine
end

section
/-! PROOF. The frames of a step: the tree slot (R52), the parameters (R42, R43), and the sticky bit of STATUS (R45). -/

open Sys2Proof

namespace Sys2Proof.Machine

/-! ### The command words of the commands that move the tree -/

/-- A word decodes to what R102 lists it for: encoding the decoded command gives the word back. -/
theorem encode_decode (w : Word) : encode (decode w) = w := by
  unfold decode
  split
  next => rfl
  next hrsvd =>
    rw [rsvd_ne, not_not] at hrsvd
    have hword : ∀ n : Nat, (opcodeField w).toNat = n → BitVec.ofNat 32 n = w := by
      intro n hn
      rw [opc] at hn
      apply BitVec.eq_of_toNat_eq
      rw [BitVec.toNat_ofNat]
      omega
    split
    next h => exact hword 1 h
    next h => exact hword 2 h
    next h => exact hword 3 h
    next h => exact hword 4 h
    next h => exact hword 5 h
    next => rfl

/-! ### Frames -/

/-- The tree slot, that is node memory, NODE_COUNT and TREE_VALID, is the same in both states (R58). -/
def SameSlot (s u : State) : Prop := u.node = s.node ∧ u.nodeCount = s.nodeCount ∧ u.treeValid = s.treeValid

theorem SameSlot.refl (s : State) : SameSlot s s := ⟨rfl, rfl, rfl⟩

/-- What no command changes (R106), and what only UNFLATTEN and RELEASE change (R58). -/
theorem exec_frame {s u : State} {i : Instr} (h : exec i s = .next u) :
    u.params = s.params ∧ u.wrWhileBusy = s.wrWhileBusy ∧
      (SameSlot s u ∨ i = .unflatten ∨ i = .release) := by
  cases commandEnd_of_exec h with
  | report => exact ⟨rfl, rfl, .inl (.refl s)⟩
  | unflattened => exact ⟨rfl, rfl, .inr (.inl rfl)⟩
  | unflattenError => exact ⟨rfl, rfl, .inr (.inl rfl)⟩
  | flattened => exact ⟨rfl, rfl, .inl (.refl s)⟩
  | encoded => exact ⟨rfl, rfl, .inl (.refl s)⟩
  | encodeError => exact ⟨rfl, rfl, .inl (.refl s)⟩
  | decoded => exact ⟨rfl, rfl, .inl (.refl s)⟩
  | decodeError => exact ⟨rfl, rfl, .inl (.refl s)⟩
  | released => exact ⟨rfl, rfl, .inr (.inr rfl)⟩

/-- A host write is a soft reset, or it leaves the parameters and the tree slot as they are (R79) and takes WR_WHILE_BUSY back only
through its bit of STATUS (R45). -/
theorem writeWord_frame (s : State) (addr : Addr) (v : Word) :
    (addr = 0x00020 ∧ v.getLsbD 1 = true ∧ writeWord s addr v = resetState s) ∨
    ((writeWord s addr v).params = s.params ∧ SameSlot s (writeWord s addr v) ∧
      ((s.wrWhileBusy = true → (writeWord s addr v).wrWhileBusy = true) ∨ (addr = 0x00024 ∧ v.getLsbD 4 = true))) := by
  rcases write_cases s addr v with ⟨-, h⟩ | ⟨haddr, h⟩ | ⟨haddr, h⟩ | ⟨-, -, h⟩ | ⟨-, h⟩
  · rw [h]; exact .inr ⟨rfl, .refl s, .inl fun _ => rfl⟩
  · rw [h, writeCtrl]
    split
    next hbit => exact .inl ⟨haddr, hbit, rfl⟩
    next => exact .inr ⟨rfl, .refl s, .inl id⟩
  · rw [h, writeStatus_eq]
    refine .inr ⟨rfl, .refl s, ?_⟩
    cases hbit : v.getLsbD 4 with
    | true => exact .inr ⟨haddr, rfl⟩
    | false => exact .inl fun hset => by rw [hset]; rfl
  · rw [h]; exact .inr ⟨rfl, .refl s, .inl id⟩
  · right
    rcases h with h | ⟨x, h⟩ | ⟨x, h⟩ | ⟨x, h⟩ | ⟨x, h⟩ | ⟨w, h⟩ | ⟨w, h⟩ | ⟨w, h⟩ | ⟨w, h⟩ <;> rw [h]
    all_goals exact ⟨rfl, .refl s, .inl id⟩

/-- A supported CTRL write with SOFT_RESET set is a reset move (R230). -/
theorem resetMove_of_write {s : State} {a : Access} {v : Word} {rest : List Event} (hm : s.agenda = .write a v :: rest)
    (ha : a.ok = true) (haddr : blockAddr a.addr = 0x00020) (hbit : v.getLsbD 1 = true) : resetMove s.agenda :=
  .inr ⟨a, v, rest, hm, ha, haddr, hbit⟩

/-- Settles O32: no agent but a reset touches the tree slot, and of the commands only UNFLATTEN and RELEASE, whose words are 1 and 5. -/
theorem onlyTreeCommandsChangeTree : Obligations.OnlyTreeCommandsChangeTree := by
  intro s u h
  cases stepMove_of_step h with
  | idle => exact .inl ⟨rfl, rfl, rfl⟩
  | command w u hm hp hx =>
    obtain ⟨-, -, htree | hi | hi⟩ := exec_frame hx
    · exact .inl htree
    · exact .inr (.inr ⟨hm, .inl (by rw [hp, ← encode_decode w, hi]; rfl)⟩)
    · exact .inr (.inr ⟨hm, .inr (by rw [hp, ← encode_decode w, hi]; rfl)⟩)
  | reset rest hm => exact .inr (.inl (.inl ⟨rest, hm⟩))
  | read => exact .inl ⟨rfl, rfl, rfl⟩
  | write a v rest hm ha =>
    rcases writeWord_frame s.moved (blockAddr a.addr) v with ⟨haddr, hbit, -⟩ | ⟨-, htree, -⟩
    · exact .inr (.inl (resetMove_of_write hm ha haddr hbit))
    · exact .inl htree

/-- Settles O45: every move carries the parameters along, a reset included. -/
theorem parametersNeverChange : Obligations.ParametersNeverChange := by
  intro s u h
  cases stepMove_of_step h with
  | idle => rfl
  | command w u _ _ hx => exact (exec_frame hx).1
  | reset => rfl
  | read => rfl
  | write a v =>
    rcases writeWord_frame s.moved (blockAddr a.addr) v with ⟨-, -, h⟩ | ⟨hparams, -, -⟩
    · rw [h]; rfl
    · exact hparams

/-- Settles O46: of the moves that are no reset only a host write can take the bit back, and only through STATUS. -/
theorem wrWhileBusyIsSticky : Obligations.WrWhileBusyIsSticky := by
  intro s u h hset hclear
  have hchanged : u.wrWhileBusy ≠ s.wrWhileBusy := by simp [hset, hclear]
  cases stepMove_of_step h with
  | idle => exact absurd rfl hchanged
  | command w u _ _ hx => exact absurd (exec_frame hx).2.1 hchanged
  | reset rest hm => exact .inl (.inl ⟨rest, hm⟩)
  | read => exact absurd rfl hchanged
  | write a v rest hm ha =>
    rcases writeWord_frame s.moved (blockAddr a.addr) v with ⟨haddr, hbit, -⟩ | ⟨-, -, hkeep | ⟨haddr, hbit⟩⟩
    · exact .inl (resetMove_of_write hm ha haddr hbit)
    · exact absurd ((hkeep hset).trans hset.symm) hchanged
    · exact .inr ⟨a, v, rest, hm, ha, haddr, hbit⟩

/-! ### The layout the invariant gives -/

/-- An entry of a loaded tree is specified exactly below NODE_COUNT (R60). -/
theorem State.HoldsTree.cell_ne_none_iff {s : State} {t : CodeTree} (ht : s.HoldsTree t) (k : Nat) :
    k < s.nodeCount.toNat ↔ s.node.cell k ≠ none := by
  rw [ht.count, ht.image, ne_eq, List.getElem?_eq_none_iff, CodeTree.layout_length, Nat.not_le]

/-- The children of an internal entry of a loaded tree stand in order above it and below NODE_COUNT (R60). -/
theorem State.HoldsTree.children_lt {s : State} {t : CodeTree} (ht : s.HoldsTree t) (hl : s.params.Legal) {k : Nat} {z o : NodeIdx}
    (h : s.node.cell k = some (.internal z o)) : k < z.toNat ∧ z.toNat < o.toNat ∧ o.toNat < s.nodeCount.toNat := by
  have hfits := ht.fits
  have hcap := hl.2.1.2
  rw [ht.image k] at h
  have hchild := layout_child t 0 k z o (by omega) h
  rw [ht.count]
  omega

/-- Settles O33: a loaded tree's layout gives each clause, and its size is odd by the leaf count (R21). -/
theorem invariantGivesTreeLayout : Obligations.InvariantGivesTreeLayout := by
  intro s hI
  refine ⟨fun hv => ?_, fun hv => ?_⟩
  · obtain ⟨hcount, hempty⟩ := hI.noTree hv
    exact ⟨hcount, fun k => by rw [hempty, cell_nil]⟩
  · obtain ⟨t, ht, -⟩ := hI.tree hv
    have hcount := ht.count
    have hfits := ht.fits
    have hodd := t.size_succ
    exact ⟨⟨t, ht⟩, by omega, by omega, by omega, ht.cell_ne_none_iff,
      fun k z o h => ⟨ht.children hI.legal k z o h, ht.children_lt hI.legal h⟩⟩

end Sys2Proof.Machine
end

section
/-! PROOF. The registers of the host port (R33, R41 to R51): one rule for a read and one for a write, then register by register; and the
state after reset (R59). -/

open Sys2Proof

namespace Sys2Proof.Machine

/-! ### One rule per access -/

/-- The register `r` stands at the block address `addr` (R34). -/
abbrev RegStandsAt (addr : Addr) (r : Reg) : Prop := regionOf addr = .regs ∧ regAt (offsetOf addr) = some r

/-- A supported read of a register that the busy window does not hide answers its value (R71, R242). -/
theorem answers_readReg {s : State} {a : Access} {addr : Addr} {r : Reg} (ha : a.ok = true) (haddr : blockAddr a.addr = addr)
    (hr : RegStandsAt addr r) (hvis : s.busy = false ∨ r.hiddenWhileBusy = false) : Answers s a (readReg s r) := by
  obtain ⟨hregion, hreg⟩ := hr
  have hread : readWord s (Config.freeWord s.draws) addr = readReg s r := by
    rcases hvis with h | h <;> simp [readWord, hregion, hreg, h]
  rw [Answers, hostRead, if_pos ha, haddr, hread]

/-- A supported write to a register, where the busy window does not drop it, has the register's effect (R72, R241). -/
theorem hostWrite_writeReg {s : State} {a : Access} {addr : Addr} {r : Reg} (v : Word) (ha : a.ok = true)
    (haddr : blockAddr a.addr = addr) (hr : RegStandsAt addr r) (heff : s.busy = false ∨ r.writableWhileBusy = true) :
    hostWrite a v s = .next (writeReg s v r) := by
  obtain ⟨hregion, hreg⟩ := hr
  have hwritable : writableWhileBusy addr = r.writableWhileBusy := by simp [writableWhileBusy, hregion, hreg]
  have hstore : storeWord s addr v = writeReg s v r := by simp [storeWord, hregion, hreg]
  rw [hostWrite, if_pos ha, haddr, writeWord, hstore, hwritable]
  rcases heff with h | h <;> simp [h]

/-! ### STATUS and CTRL -/

/-- Settles O50: STATUS takes its writes in the busy window too, and packs the five flags. -/
theorem statusRegister : Obligations.StatusRegister := by
  intro s a v ha haddr
  have hr : RegStandsAt 0x00024 .status := by decide
  refine ⟨?_, statusWord s, answers_readReg ha haddr hr (.inr rfl), ?_⟩
  · rw [hostWrite_writeReg v ha haddr hr (.inr rfl), ← writeStatus_eq]; rfl
  · obtain ⟨w, hw, hbusy, hdone, herr, htree, hwr, hlt⟩ := status_bits s.busy s.done s.err s.treeValid s.wrWhileBusy
    rw [statusWord, hw]
    refine ⟨?_, hdone, ?_, htree, hwr, hlt⟩
    · rw [hbusy, State.busy, Option.isSome_iff_ne_none]
    · rw [herr, State.err, bne_iff_ne]

/-- Settles O49: CTRL takes its writes in the busy window too; a soft reset is the reset of R59. -/
theorem ctrlRegister : Obligations.CtrlRegister := by
  intro s a v ha haddr
  have hr : RegStandsAt 0x00020 .ctrl := by decide
  have hwrite : hostWrite a v s = .next (writeCtrl v s) := hostWrite_writeReg v ha haddr hr (.inr rfl)
  refine ⟨fun hbit => ?_, fun hbit => ?_, answers_readReg ha haddr hr (.inr rfl), fun hen => ?_⟩
  · rw [hwrite, writeCtrl, if_pos hbit]; rfl
  · rw [hwrite, writeCtrl, hbit, if_neg Bool.false_ne_true]
  · rw [State.irq, hen, Bool.true_and]

/-! ### Length registers and read-only registers -/

/-- Settles O51: each of the four registers has its offset, stores the word and reads back. -/
theorem lengthRegisters : Obligations.LengthRegisters := by
  intro s a v ha hidle
  have rule : ∀ (addr : Addr) (r : Reg), RegStandsAt addr r → blockAddr a.addr = addr →
      hostWrite a v s = .next (writeReg s v r) ∧ Answers s a (readReg s r) := fun addr r hr haddr =>
    ⟨hostWrite_writeReg v ha haddr hr (.inl hidle), answers_readReg ha haddr hr (.inl hidle)⟩
  exact ⟨rule _ .shapeLen (by decide), rule _ .leafLen (by decide), rule _ .msgLen (by decide), rule _ .textLen (by decide)⟩

/-- The registers that ignore every write (R41 to R43, R47 to R49, R51), each with its address (R34). -/
def readOnlyMap : List (Addr × Reg) :=
  [(0x00000, .id), (0x00004, .symw), (0x00008, .nodeCapR), (0x0000C, .shapeCapR), (0x00010, .leafCapR), (0x00014, .msgCapR),
    (0x00018, .textCapR), (0x0002C, .errCause), (0x00030, .errDetail), (0x00034, .errIndex), (0x00050, .nodeCount)]

theorem readOnlyMap_stands : ∀ e ∈ readOnlyMap, RegStandsAt e.1 e.2 := by decide

theorem writeReg_readOnly (s : State) (v : Word) : ∀ e ∈ readOnlyMap, writeReg s v e.2 = s := by
  simp [readOnlyMap, writeReg]

/-- SYMW has five bits, which hold every legal SYM_W (R42, R7). -/
theorem readReg_symw {s : State} (hl : s.params.Legal) : readReg s .symw = BitVec.ofNat 32 s.params.symW := by
  have hsym := hl.1.2
  rw [readReg, Nat.mod_eq_of_lt (by omega)]

/-- Settles O52: all but NODE_COUNT are visible in the busy window, and none takes a write. -/
theorem readOnlyRegisters : Obligations.ReadOnlyRegisters := by
  intro s a v hl ha
  have visible : ∀ (addr : Addr) (r : Reg), RegStandsAt addr r → r.hiddenWhileBusy = false → blockAddr a.addr = addr →
      Answers s a (readReg s r) := fun addr r hr hvis haddr => answers_readReg ha haddr hr (.inr hvis)
  refine ⟨visible _ .id (by decide) rfl, ?_, visible _ .nodeCapR (by decide) rfl, visible _ .shapeCapR (by decide) rfl,
    visible _ .leafCapR (by decide) rfl, visible _ .msgCapR (by decide) rfl, visible _ .textCapR (by decide) rfl,
    visible _ .errCause (by decide) rfl, visible _ .errDetail (by decide) rfl, visible _ .errIndex (by decide) rfl, ?_, ?_⟩
  · rw [← readReg_symw hl]
    exact visible _ .symw (by decide) rfl
  · intro haddr hidle
    exact answers_readReg (r := .nodeCount) ha haddr (by decide) (.inl hidle)
  · intro hidle hmem
    obtain ⟨e, he, haddr⟩ : ∃ e ∈ readOnlyMap, e.1 = blockAddr a.addr := List.mem_map.mp hmem
    rw [hostWrite_writeReg v ha haddr.symm (readOnlyMap_stands e he) (.inl hidle), writeReg_readOnly s v e he]

/-! ### The state after reset and the placed word -/

/-- Settles O9: the record of R59, field by field. -/
theorem resetValues : Obligations.ResetValues := ⟨rfl, rfl, rfl⟩

/-- Settles O43: no memory lists a cell, no tree is loaded and nothing is pending. -/
theorem resetSatisfiesInvariant : Obligations.ResetSatisfiesInvariant where
  legal := show Params.defaults.Legal by decide
  shapeFits := fits_nil _
  leavesFits := fits_nil _
  msgFits := fits_nil _
  textFits := fits_nil _
  nodeFits := fits_nil _
  leavesSyms := symsFit_nil _
  textSyms := symsFit_nil _
  cause := Nat.zero_le 9
  noTree _ := ⟨rfl, rfl⟩
  tree h := by cases h
  busyClear h := by cases h

/-- Settles O6: the engine's move stands first on the agenda, and taking it off gives back the agenda of before. -/
theorem placedWordRunsNext : Obligations.PlacedWordRunsNext := fun _ _ _ => rfl

end Sys2Proof.Machine
end

section
/-! PROOF. Memory as the host port sees it: what the port refuses (R76), which address bits it sees (R74), the addresses where nothing stands
(R73, R34), and the cells behind a word of a window (R77, R78). -/

open Sys2Proof

namespace Sys2Proof.Machine

/-! ### Accesses and addresses -/

theorem Access.ok_iff (a : Access) : a.ok = true ↔ a.addr % 4 = 0 ∧ a.size = 4 ∧ a.lanes = 0xF := by
  simp [Access.ok, and_assoc]

/-- The port does not support an access that is misaligned or not a full word (R76). -/
theorem Access.not_ok {a : Access} (h : a.addr % 4 ≠ 0 ∨ a.size ≠ 4 ∨ a.lanes ≠ 0xF) : ¬ a.ok = true := by
  rw [Access.ok_iff, not_and_or, not_and_or]
  exact h

/-- Settles O58: both transactions test the access before anything else. -/
theorem misalignedAccessFaults : Obligations.MisalignedAccessFaults := by
  intro s a v h
  have hok := Access.not_ok h
  exact ⟨if_neg hok, if_neg hok⟩

/-- The block sees the low 20 bits of an address (R74). -/
theorem blockAddr_add_mul (n k : Nat) : blockAddr (n + k * 0x100000) = blockAddr n := by
  apply BitVec.eq_of_toNat_eq
  simp only [blockAddr, BitVec.toNat_ofNat]
  omega

/-- The bits above bit 19 do not touch the alignment (R76). -/
theorem Access.ok_add_mul (a : Access) (k : Nat) : Access.ok { a with addr := a.addr + k * 0x100000 } = a.ok := by
  have haligned : (a.addr + k * 0x100000) % 4 = a.addr % 4 := by omega
  rw [Bool.eq_iff_iff, Access.ok_iff, Access.ok_iff, haligned]

/-- Settles O59: an access meets the block only through its support and its block address, and neither sees the high bits. -/
theorem highAddressBitsIgnored : Obligations.HighAddressBitsIgnored := by
  intro s a v k
  simp only [hostRead, hostWrite, Access.ok_add_mul, blockAddr_add_mul, and_self]

/-! ### One rule per transaction -/

/-- A supported read answers the word that stands at the block address (R71). -/
theorem answers_of_readWord {s : State} {a : Access} {w : Word} (ha : a.ok = true)
    (h : readWord s (Config.freeWord s.draws) (blockAddr a.addr) = w) : Answers s a w := by
  rw [Answers, hostRead, if_pos ha, h]

/-- A supported write with nothing pending is not dropped (R72). -/
theorem hostWrite_of_storeWord {s u : State} {a : Access} {v : Word} (ha : a.ok = true) (hidle : s.busy = false)
    (h : storeWord s (blockAddr a.addr) v = u) : hostWrite a v s = .next u := by
  rw [hostWrite, if_pos ha, writeWord, hidle, Bool.false_and, if_neg Bool.false_ne_true, h]

/-! ### Addresses where nothing stands -/

/-- No register and no window word stands at the address (R73, R34). -/
def NothingAt (addr : Addr) : Prop := regionOf addr = .unmapped ∨ regionOf addr = .regs ∧ regAt (offsetOf addr) = none

theorem readWord_nothingAt {addr : Addr} (h : NothingAt addr) (s : State) (free : Word) : readWord s free addr = 0 := by
  rcases h with hregion | ⟨hregion, hreg⟩
  · simp only [readWord, hregion]
  · simp only [readWord, hregion, hreg]

theorem storeWord_nothingAt {addr : Addr} (h : NothingAt addr) (s : State) (v : Word) : storeWord s addr v = s := by
  rcases h with hregion | ⟨hregion, hreg⟩
  · simp only [storeWord, hregion]
  · simp only [storeWord, hregion, hreg]

/-- Settles O53: nothing stands past the last window nor at a reserved offset, and CMD has no read value (R46). -/
theorem unmappedReadsZeroIgnoresWrites : Obligations.UnmappedReadsZeroIgnoresWrites := by
  intro s a v ha
  have rule : NothingAt (blockAddr a.addr) → Answers s a 0 ∧ (s.busy = false → hostWrite a v s = .next s) := fun h =>
    ⟨answers_of_readWord ha (readWord_nothingAt h s _), fun hidle => hostWrite_of_storeWord ha hidle (storeWord_nothingAt h s v)⟩
  refine ⟨fun hhigh => rule (.inl (region_high _ hhigh)), fun hlow hreserved => rule (.inr ?_), fun haddr => ?_⟩
  · obtain ⟨hregion, hoffset⟩ := region_low _ hlow
    exact ⟨hregion, by rw [hoffset]; exact regAt_none _ hreserved⟩
  · exact answers_readReg (r := .cmd) ha haddr (by decide) (.inr rfl)

/-! ### One rule per window -/

section Windows

variable {s : State} {a : Access} {w : Nat} (v : Word) (ha : a.ok = true) (hidle : s.busy = false) (hw : w < 2 ^ 14)

include ha hidle hw

theorem access_shapeW (haddr : blockAddr a.addr = BitVec.ofNat 20 (0x10000 + 4 * w)) :
    hostWrite a v s = .next { s with shape := writeBitWord s.params.shapeCap s.shape w v } ∧
      Answers s a (readBitWord s.params.shapeCap s.shape (Config.freeWord s.draws) w) := by
  obtain ⟨hnibble, hindex⟩ := window 1 w (by decide) hw _ haddr
  have hregion : regionOf (blockAddr a.addr) = .shapeW := by simp only [regionOf, hnibble]
  exact ⟨hostWrite_of_storeWord ha hidle (by simp only [storeWord, hregion, hindex]),
    answers_of_readWord ha (by simp [readWord, hregion, hindex, hidle])⟩

theorem access_leavesW (haddr : blockAddr a.addr = BitVec.ofNat 20 (0x20000 + 4 * w)) :
    hostWrite a v s = .next { s with leaves := writeSymWord s.params.symW s.params.leafCap s.leaves w v } ∧
      Answers s a (readSymWord s.params.symW s.params.leafCap s.leaves (Config.freeWord s.draws) w) := by
  obtain ⟨hnibble, hindex⟩ := window 2 w (by decide) hw _ haddr
  have hregion : regionOf (blockAddr a.addr) = .leavesW := by simp only [regionOf, hnibble]
  exact ⟨hostWrite_of_storeWord ha hidle (by simp only [storeWord, hregion, hindex]),
    answers_of_readWord ha (by simp [readWord, hregion, hindex, hidle])⟩

theorem access_msgW (haddr : blockAddr a.addr = BitVec.ofNat 20 (0x30000 + 4 * w)) :
    hostWrite a v s = .next { s with msg := writeBitWord s.params.msgCap s.msg w v } ∧
      Answers s a (readBitWord s.params.msgCap s.msg (Config.freeWord s.draws) w) := by
  obtain ⟨hnibble, hindex⟩ := window 3 w (by decide) hw _ haddr
  have hregion : regionOf (blockAddr a.addr) = .msgW := by simp only [regionOf, hnibble]
  exact ⟨hostWrite_of_storeWord ha hidle (by simp only [storeWord, hregion, hindex]),
    answers_of_readWord ha (by simp [readWord, hregion, hindex, hidle])⟩

theorem access_textW (haddr : blockAddr a.addr = BitVec.ofNat 20 (0x40000 + 4 * w)) :
    hostWrite a v s = .next { s with text := writeSymWord s.params.symW s.params.textCap s.text w v } ∧
      Answers s a (readSymWord s.params.symW s.params.textCap s.text (Config.freeWord s.draws) w) := by
  obtain ⟨hnibble, hindex⟩ := window 4 w (by decide) hw _ haddr
  have hregion : regionOf (blockAddr a.addr) = .textW := by simp only [regionOf, hnibble]
  exact ⟨hostWrite_of_storeWord ha hidle (by simp only [storeWord, hregion, hindex]),
    answers_of_readWord ha (by simp [readWord, hregion, hindex, hidle])⟩

end Windows

/-! ### Bit windows -/

/-- A bit of a packed word is 0 past the capacity and the cell's where the cell is written (R77). -/
theorem readBitWord_cells (cap : Nat) (m : Memory Bool) (free : Word) (w j : Nat) (hj : j < 32) :
    (cap ≤ 32 * w + j → (readBitWord cap m free w).getLsbD j = false) ∧
    (∀ b, 32 * w + j < cap → m.cell (32 * w + j) = some b → (readBitWord cap m free w).getLsbD j = b) := by
  rw [readBitWord_get cap m free w j hj]
  refine ⟨fun hpast => if_neg (by omega), fun b hbelow hcell => ?_⟩
  rw [if_pos hbelow, hcell, Option.getD_some]

/-- Settles O54: each window's rule, and the packed word cell by cell. -/
theorem bitWindows : Obligations.BitWindows := by
  intro s a v w ha hidle hshape hmsg hw
  refine ⟨fun haddr => ?_, fun haddr => ?_⟩
  · obtain ⟨hwrite, hread⟩ := access_shapeW v ha hidle hw haddr
    exact ⟨⟨_, hwrite, rfl, fun k => cell_writeBitWord _ _ w k v hshape⟩, _, hread, readBitWord_cells _ _ _ w⟩
  · obtain ⟨hwrite, hread⟩ := access_msgW v ha hidle hw haddr
    exact ⟨⟨_, hwrite, rfl, fun k => cell_writeBitWord _ _ w k v hmsg⟩, _, hread, readBitWord_cells _ _ _ w⟩

/-! ### Symbol windows -/

/-- A symbol write changes no cell but its own, and nothing at or past the capacity (R78). -/
theorem cell_writeSymWord_other {symW cap w k : Nat} {m : Memory Symbol} (v : Word) (hm : m.wf) (h : k ≠ w ∨ cap ≤ w) :
    (writeSymWord symW cap m w v).cell k = m.cell k := by
  unfold writeSymWord
  split
  next hbelow => exact cell_put_other m w k _ hm (h.resolve_right (by omega))
  next => rfl

/-- A symbol write below the capacity stores the low SYM_W bits (R78). -/
theorem cell_writeSymWord_self {symW cap w : Nat} {m : Memory Symbol} (v : Word) (hm : m.wf) (hbelow : w < cap) :
    (writeSymWord symW cap m w v).cell w = some (truncSym symW v) := by
  rw [writeSymWord, if_pos hbelow, cell_put_self m w _ hm]

/-- What a symbol write leaves in a symbol buffer (R78). -/
theorem writeSymWord_cells {symW cap w : Nat} {m : Memory Symbol} (v : Word) (hm : m.wf) (hsym : symW ≤ 16) :
    (∀ k, k ≠ w ∨ cap ≤ w → (writeSymWord symW cap m w v).cell k = m.cell k) ∧
    (w < cap → ∃ x, (writeSymWord symW cap m w v).cell w = some x ∧ x.toNat = v.toNat % 2 ^ symW) :=
  ⟨fun _ => cell_writeSymWord_other v hm, fun hbelow => ⟨_, cell_writeSymWord_self v hm hbelow, truncSym_toNat symW v hsym⟩⟩

theorem readSymWord_past {symW cap w : Nat} (m : Memory Symbol) (free : Word) (hpast : cap ≤ w) :
    readSymWord symW cap m free w = 0 := by
  rw [readSymWord, if_neg (by omega)]

theorem readSymWord_written {symW cap w : Nat} {m : Memory Symbol} {x : Symbol} (free : Word) (hbelow : w < cap)
    (hcell : m.cell w = some x) : readSymWord symW cap m free w = x.setWidth 32 := by
  rw [readSymWord, if_pos hbelow, hcell, Option.getD_some]

/-- An unwritten cell reads as a SYM_W-bit value (R80). -/
theorem readSymWord_unwritten_lt {symW cap w : Nat} {m : Memory Symbol} (free : Word) (hsym : symW ≤ 16) (hbelow : w < cap)
    (hcell : m.cell w = none) : (readSymWord symW cap m free w).toNat < 2 ^ symW := by
  rw [readSymWord, if_pos hbelow, hcell, Option.getD_none, BitVec.toNat_setWidth_of_le (by decide)]
  exact truncSym_lt symW free hsym

/-- What the host learns of a cell from the answer of a symbol window (R78, R80). -/
theorem answers_readSymWord {s : State} {a : Access} {symW cap w : Nat} {m : Memory Symbol} {free : Word} (hsym : symW ≤ 16)
    (h : Answers s a (readSymWord symW cap m free w)) :
    (cap ≤ w → Answers s a 0) ∧
    (∀ x, w < cap → m.cell w = some x → Answers s a (x.setWidth 32)) ∧
    (w < cap → m.cell w = none → ∃ word, Answers s a word ∧ word.toNat < 2 ^ symW) :=
  ⟨fun hpast => readSymWord_past m free hpast ▸ h,
    fun _ hbelow hcell => readSymWord_written free hbelow hcell ▸ h,
    fun hbelow hcell => ⟨_, h, readSymWord_unwritten_lt free hsym hbelow hcell⟩⟩

/-- Settles O55: each window's rule, and the symbol cell behind the word. -/
theorem symbolWindows : Obligations.SymbolWindows := by
  intro s a v w ha hidle hlegal hleaves htext hw
  have hsym : s.params.symW ≤ 16 := hlegal.1.2
  refine ⟨fun haddr => ?_, fun haddr => ?_⟩
  · obtain ⟨hwrite, hread⟩ := access_leavesW v ha hidle hw haddr
    exact ⟨⟨_, hwrite, rfl, writeSymWord_cells v hleaves hsym⟩, answers_readSymWord hsym hread⟩
  · obtain ⟨hwrite, hread⟩ := access_textW v ha hidle hw haddr
    exact ⟨⟨_, hwrite, rfl, writeSymWord_cells v htext hsym⟩, answers_readSymWord hsym hread⟩

end Sys2Proof.Machine
end

section
/-! PROOF. The command words: which word stands for which command (R102), the illegal words (R103), and the decoder against the encoder
(R107). -/

open Sys2Proof

namespace Sys2Proof.Machine

/-! ### The decoder against the table of R102 -/

/-- Settles O3: the listed words by their opcode, the four others by the rule of illegal words. -/
theorem opcodeWordsDecode : Obligations.OpcodeWordsDecode :=
  ⟨rfl, rfl, rfl, rfl, rfl, decode_illegal _ (by decide), decode_illegal _ (by decide), decode_illegal _ (by decide),
    decode_illegal _ (by decide)⟩

/-- A word that R102 does not list is illegal (R103). -/
theorem decode_of_not_listed {w : Word} (h : listedWord w = false) : decode w = .illegal w := by
  have hlisted := (listed_iff w).not.mp (by rw [h]; exact Bool.false_ne_true)
  exact decode_illegal w (by omega)

/-- A word that R102 lists decodes to its command. -/
theorem decode_wf_of_listed {w : Word} (h : listedWord w = true) : (decode w).wf = true := by
  obtain ⟨hunflatten, hflatten, hencode, hdecode, hrelease, -⟩ := opcodeWordsDecode
  simp only [listedWord, Bool.or_eq_true, beq_iff_eq] at h
  rcases h with (((rfl | rfl) | rfl) | rfl) | rfl
  · exact congrArg Instr.wf hunflatten
  · exact congrArg Instr.wf hflatten
  · exact congrArg Instr.wf hencode
  · exact congrArg Instr.wf hdecode
  · exact congrArg Instr.wf hrelease

/-- What a word decodes to stands for a command word. -/
theorem decode_wf (w : Word) : (decode w).wf = true := by
  cases hlisted : listedWord w with
  | true => exact decode_wf_of_listed hlisted
  | false => rw [decode_of_not_listed hlisted, Instr.wf, hlisted]; rfl

/-- Settles O1: a command has its word of R102, and an illegal term that is well formed holds a word the decoder finds illegal. -/
theorem decodeOfEncodeIsIdentity : Obligations.DecodeOfEncodeIsIdentity := by
  obtain ⟨hunflatten, hflatten, hencode, hdecode, hrelease, -⟩ := opcodeWordsDecode
  intro i hwf
  cases i with
  | unflatten => exact hunflatten
  | flatten => exact hflatten
  | encode => exact hencode
  | decode => exact hdecode
  | release => exact hrelease
  | illegal w => exact decode_of_not_listed (w := w) (by simpa [Instr.wf] using hwf)

/-- Settles O2: the decoder loses nothing of a word, and calls no listed word illegal. -/
theorem encodeOfDecodeIsIdentity : Obligations.EncodeOfDecodeIsIdentity := fun w => ⟨encode_decode w, decode_wf w⟩

/-! ### What an illegal word does -/

/-- The detail code of an illegal word, by the bits above bit 3 as a number (R103). -/
theorem illegalDetail_eq (w : Word) : illegalDetail w = if w.toNat / 16 ≠ 0 then 2 else 1 := by
  simp only [illegalDetail, rsvd_ne]

/-- The engine's move on an illegal word only takes the error (R103). -/
theorem exec_illegal_eq_ended (w : Word) (s : State) : exec (.illegal w) s = .next (ended 0x01 (illegalDetail w) 0 s) := rfl

/-- Settles O4: decoding, acceptance as at any CMD write, and the completion with the detail of R202. -/
theorem illegalWordCompletesWithError : Obligations.IllegalWordCompletesWithError := by
  intro s w hillegal
  refine ⟨decode_illegal w hillegal, fun hidle => ⟨acceptCommand w s, ?_, rfl, rfl⟩, ?_⟩
  · exact hostWrite_writeReg (addr := 0x00028) (r := .cmd) w (by decide) rfl (by decide) (.inl hidle)
  · rw [exec_illegal_eq_ended, illegalDetail_eq]

end Sys2Proof.Machine
end

section
/-! PROOF. What each command leaves unchanged (R106, R126, R133), buffer by buffer, read off the ways a command can end. -/

open Sys2Proof

namespace Sys2Proof.Machine

section Frames

variable {s u : State} {i : Instr} (h : exec i s = .next u)

include h

/-- No command writes the parameters, CTRL, WR_WHILE_BUSY or the model's own agenda and port answer. -/
theorem exec_frame_control :
    u.params = s.params ∧ u.irqEn = s.irqEn ∧ u.wrWhileBusy = s.wrWhileBusy ∧ u.agenda = s.agenda ∧ u.rdata = s.rdata := by
  cases commandEnd_of_exec h <;> exact ⟨rfl, rfl, rfl, rfl, rfl⟩

/-- The tree slot belongs to UNFLATTEN and RELEASE. -/
theorem exec_frame_slot (hunflatten : i ≠ .unflatten) (hrelease : i ≠ .release) : SameSlot s u := by
  obtain ⟨-, -, hslot | hi | hi⟩ := exec_frame h
  · exact hslot
  · exact absurd hi hunflatten
  · exact absurd hi hrelease

/-- SHAPE and LEAVES are outputs of FLATTEN alone. -/
theorem exec_frame_streams (hi : i ≠ .flatten) :
    u.shape = s.shape ∧ u.shapeLen = s.shapeLen ∧ u.leaves = s.leaves ∧ u.leafLen = s.leafLen := by
  cases commandEnd_of_exec h with
  | flattened => exact absurd rfl hi
  | _ => exact ⟨rfl, rfl, rfl, rfl⟩

/-- MSG is an output of ENCODE alone. -/
theorem exec_frame_msg (hi : i ≠ .encode) : u.msg = s.msg ∧ u.msgLen = s.msgLen := by
  cases commandEnd_of_exec h with
  | encoded => exact absurd rfl hi
  | encodeError => exact absurd rfl hi
  | _ => exact ⟨rfl, rfl⟩

/-- TEXT is an output of DECODE alone. -/
theorem exec_frame_text (hi : i ≠ .decode) : u.text = s.text ∧ u.textLen = s.textLen := by
  cases commandEnd_of_exec h with
  | decoded => exact absurd rfl hi
  | decodeError => exact absurd rfl hi
  | _ => exact ⟨rfl, rfl⟩

end Frames

/-- Settles O38: the frames of the control state, the tree slot and the four buffers, put together. -/
theorem commandFrame : Obligations.CommandFrame := by
  intro s u i h
  obtain ⟨hparams, hirq, hwr, hagenda, hrdata⟩ := exec_frame_control h
  exact ⟨hparams, hirq, hwr, hagenda, hrdata, exec_frame_slot h, exec_frame_streams h, exec_frame_msg h, exec_frame_text h⟩

end Sys2Proof.Machine
end

section
/-! PROOF. The node window of the host port (R79): its one rule per transaction, and the fields of a node word (R104). -/

open Sys2Proof

namespace Sys2Proof.Machine

/-! ### The fields of a node word -/

/-- The tag of a leaf's word stands alone in bit 31 (R104). -/
theorem leafTag_low : ∀ k < 31, (0x80000000#32).getLsbD k = false := by decide

/-- A leaf's word: the tag bit, then zeros, then the symbol zero-extended to 16 bits (R104). -/
theorem nodeWord_leaf_fields (x : Symbol) :
    (nodeWord (.leaf x)).getLsbD 31 = true ∧ (nodeWord (.leaf x)).extractLsb' 16 15 = 0 ∧
      (nodeWord (.leaf x)).extractLsb' 0 16 = x := by
  refine ⟨?_, BitVec.eq_of_getLsbD_eq fun k hk => ?_, BitVec.eq_of_getLsbD_eq fun k hk => ?_⟩
  · simp [nodeWord]
  · have htag := leafTag_low (16 + k) (by omega)
    simpa [nodeWord, hk] using htag
  · have htag := leafTag_low k (by omega)
    have hsym : k < 32 := by omega
    rw [BitVec.getLsbD_eq_getElem hsym] at htag
    simp [nodeWord, hk, hsym, htag]

/-- An internal node's word: the tag bit clear, then the zero child's index, a zero bit, and the one child's index (R104). -/
theorem nodeWord_internal_fields (z o : NodeIdx) :
    (nodeWord (.internal z o)).getLsbD 31 = false ∧ (nodeWord (.internal z o)).extractLsb' 16 15 = z ∧
      (nodeWord (.internal z o)).getLsbD 15 = false ∧ (nodeWord (.internal z o)).extractLsb' 0 15 = o := by
  refine ⟨?_, BitVec.eq_of_getLsbD_eq fun k hk => ?_, ?_, BitVec.eq_of_getLsbD_eq fun k hk => ?_⟩
  · simp [nodeWord]
  · have hzero : 16 + k < 32 ∧ k < 32 := by omega
    have hone : o.getLsbD (16 + k) = false := BitVec.getLsbD_of_ge o (16 + k) (by omega)
    simp [nodeWord, hk, hzero, hone]
  · simp [nodeWord]
  · have hone : k < 32 ∧ k < 16 := by omega
    simp [nodeWord, hk, hone]

/-! ### A word of the window -/

theorem readNodeWord_past {cap w : Nat} (m : Memory Node) (free : Word) (hpast : cap ≤ w) : readNodeWord cap m free w = 0 := by
  rw [readNodeWord, if_neg (by omega)]

theorem readNodeWord_written {cap w : Nat} {m : Memory Node} {n : Node} (free : Word) (hbelow : w < cap)
    (hcell : m.cell w = some n) : readNodeWord cap m free w = nodeWord n := by
  rw [readNodeWord, if_pos hbelow, hcell, Option.elim_some]

/-- A supported access to word `w` of the node window while no command is pending (R72, R79). -/
theorem access_nodeW {s : State} {a : Access} {w : Nat} (v : Word) (ha : a.ok = true) (hidle : s.busy = false) (hw : w < 2 ^ 14)
    (haddr : blockAddr a.addr = BitVec.ofNat 20 (0x50000 + 4 * w)) :
    hostWrite a v s = .next s ∧ Answers s a (readNodeWord s.params.nodeCap s.node (Config.freeWord s.draws) w) := by
  obtain ⟨hnibble, hindex⟩ := window 5 w (by decide) hw _ haddr
  have hregion : regionOf (blockAddr a.addr) = .nodeW := by simp only [regionOf, hnibble]
  exact ⟨hostWrite_of_storeWord ha hidle (by simp only [storeWord, hregion]),
    answers_of_readWord ha (by simp [readWord, hregion, hindex, hidle])⟩

/-- Settles O56: the window's rule, and the fields of the word the entry has. -/
theorem nodeWindow : Obligations.NodeWindow := by
  intro s a v w ha hidle hw haddr
  obtain ⟨hwrite, hread⟩ := access_nodeW v ha hidle hw haddr
  refine ⟨hwrite, fun hpast => ?_, fun x hbelow hcell => ?_, fun z o hbelow hcell => ?_, fun _ _ => ⟨_, hread⟩⟩
  · exact readNodeWord_past s.node _ hpast ▸ hread
  · exact ⟨_, readNodeWord_written _ hbelow hcell ▸ hread, nodeWord_leaf_fields x⟩
  · exact ⟨_, readNodeWord_written _ hbelow hcell ▸ hread, nodeWord_internal_fields z o⟩

end Sys2Proof.Machine
end

section
/-! PROOF. What the ends of all commands have in common (R122, R124, R125), that under the invariant every command ends (R129), and how a
command comes to be issued and performed (R120, R122). -/

open Sys2Proof

namespace Sys2Proof.Machine

/-! ### Completion -/

/-- Both completions, normal and by an error, clear the pending command and set DONE (R124, R125). -/
theorem exec_completes {s u : State} {i : Instr} (h : exec i s = .next u) : u.pend = none ∧ u.done = true := by
  cases commandEnd_of_exec h <;> exact ⟨rfl, rfl⟩

theorem busy_of_pend {s : State} {w : Word} (hp : s.pend = some w) : s.busy = true := by
  rw [State.busy, hp, Option.isSome_some]

/-- Settles O35: every completion has cleared the pending command and set DONE, and no command writes CTRL. -/
theorem completionSetsDoneAndIrq : Obligations.CompletionSetsDoneAndIrq := by
  intro s u i h
  obtain ⟨hpend, hdone⟩ := exec_completes h
  obtain ⟨-, hirqEn, -⟩ := exec_frame_control h
  refine ⟨hpend, ?_, hdone, ?_, rfl⟩
  · rw [State.busy, hpend, Option.isSome_none]
  · rw [State.irq, hirqEn, hdone, Bool.and_true]

/-! ### Issue and execution -/

/-- A write that the busy window does not let through is dropped and recorded (R241). -/
theorem hostWrite_dropped {s : State} {a : Access} {addr : Addr} (v : Word) (ha : a.ok = true) (haddr : blockAddr a.addr = addr)
    (hbusy : s.busy = true) (hdrop : writableWhileBusy addr = false) : hostWrite a v s = .next { s with wrWhileBusy := true } := by
  rw [hostWrite, if_pos ha, haddr, writeWord, hbusy, hdrop, Bool.true_and, Bool.not_false, if_pos rfl]

/-- Settles O47: CMD takes a write as R120 says, and the busy window does not let it through. -/
theorem cmdWriteIssuesCommand : Obligations.CmdWriteIssuesCommand := by
  intro s a w ha haddr
  refine ⟨fun hidle => ?_, fun hbusy => ?_⟩
  · exact hostWrite_writeReg (r := .cmd) w ha haddr (by decide) (.inl hidle)
  · exact hostWrite_dropped w ha haddr hbusy (by decide)

/-- The engine performs the pending command (R122). -/
theorem engineStep_of_pend {s : State} {w : Word} (hp : s.pend = some w) : engineStep s = exec (decode w) s := by
  simp only [engineStep, hp]

/-- Settles O5: either way the step is the engine's, and taking the move off the agenda leaves the command pending. -/
theorem stepRunsPendingCommand : Obligations.StepRunsPendingCommand := by
  intro s w hp
  refine ⟨fun hm => ?_, fun rest hm => ?_⟩
  · simp only [step, hm]
    exact engineStep_of_pend hp
  · simp only [step, hm]
    exact engineStep_of_pend (s := { s with agenda := rest }) hp

/-! ### Every command ends -/

/-- DECODE's loop reads only specified entries (R129) where both children of every internal entry are specified and the walk stands on an
internal entry, as it does again at the root after each symbol. -/
theorem decodeBits_ne_domain {m : Memory Node} {cap : Nat} (j : Nat) (bs : List Bool) (cur : NodeIdx) (start : Nat)
    (out : List Symbol) (hroot : ∃ z o, m.cell 0 = some (.internal z o))
    (hchild : ∀ k z o b, m.cell k = some (.internal z o) → m.cell (childOf z o b).toNat ≠ none)
    (hcur : ∃ z o, m.cell cur.toNat = some (.internal z o)) : decodeBits m cap j bs cur start out ≠ .error .domain := by
  induction bs generalizing j cur start out with
  | nil =>
    rw [decodeBits]
    split <;> simp
  | cons b bs ih =>
    obtain ⟨z, o, hzo⟩ := hcur
    simp only [decodeBits, hzo]
    split
    next hnone => exact absurd hnone (hchild _ z o b hzo)
    next x _ =>
      split
      next => simp
      next => exact ih _ _ _ _ hroot
    next z' o' hzo' => exact ih _ _ _ _ ⟨z', o', hzo'⟩

/-- Both children of an internal entry of a loaded tree are specified (R60). -/
theorem State.HoldsTree.child_ne_none {s : State} {t : CodeTree} (ht : s.HoldsTree t) (hl : s.params.Legal) (k : Nat) (z o : NodeIdx)
    (b : Bool) (h : s.node.cell k = some (.internal z o)) : s.node.cell (childOf z o b).toNat ≠ none := by
  obtain ⟨-, hzo, ho⟩ := ht.children_lt hl h
  rw [← ht.cell_ne_none_iff]
  cases b with
  | false => exact hzo.trans ho
  | true => exact ho

/-- The root of a degenerate tree is a leaf entry. -/
theorem State.HoldsTree.root_leaf {s : State} {t : CodeTree} (ht : s.HoldsTree t) (hd : t.degenerate = true) :
    ∃ x, s.node.cell 0 = some (.leaf x) := by
  cases t with
  | leaf x => exact ⟨x, by rw [ht.image 0]; rfl⟩
  | node z o => cases hd

/-- UNFLATTEN ends in every state: its data phase answers a tree or a report. -/
theorem execUnflatten_ends (s : State) : ∃ u, execUnflatten s = .next u := by
  unfold execUnflatten
  split
  next => exact ⟨_, rfl⟩
  next =>
    split
    next => exact ⟨_, rfl⟩
    next =>
      split
      next => exact ⟨_, rfl⟩
      next => split <;> exact ⟨_, rfl⟩

theorem execRelease_ends (s : State) : ∃ u, execRelease s = .next u := by
  unfold execRelease
  split <;> exact ⟨_, rfl⟩

theorem execFlatten_ends {s : State} (hI : s.Inv) : ∃ u, execFlatten s = .next u := by
  unfold execFlatten
  split
  next => exact ⟨_, rfl⟩
  next hv =>
    obtain ⟨t, ht, -⟩ := hI.tree (by simpa using hv)
    rw [ht.flatRoot hI.legal]
    exact ⟨_, rfl⟩

theorem execEncode_ends {s : State} (hI : s.Inv) : ∃ u, execEncode s = .next u := by
  unfold execEncode
  split
  next => exact ⟨_, rfl⟩
  next hv =>
    obtain ⟨t, ht, -⟩ := hI.tree (by simpa using hv)
    split
    next => exact ⟨_, rfl⟩
    next =>
      rw [ht.codeTable hI.legal]
      cases hd : t.degenerate with
      | true =>
        obtain ⟨x, hx⟩ := ht.root_leaf hd
        exact ⟨_, by rw [hx]⟩
      | false =>
        obtain ⟨z, o, hzo⟩ := root_cell s t ht hd
        exact ⟨_, by rw [hzo]⟩

theorem execDecode_ends {s : State} (hI : s.Inv) : ∃ u, execDecode s = .next u := by
  unfold execDecode
  split
  next => exact ⟨_, rfl⟩
  next hv =>
    obtain ⟨t, ht, -⟩ := hI.tree (by simpa using hv)
    split
    next => exact ⟨_, rfl⟩
    next =>
      split
      next hnone => exact absurd hnone ((ht.cell_ne_none_iff 0).mp (by rw [ht.count]; exact t.size_pos))
      next => exact ⟨_, rfl⟩
      next z o hzo =>
        split
        next hdomain => exact absurd hdomain (decodeBits_ne_domain _ _ _ _ _ ⟨z, o, hzo⟩ (ht.child_ne_none hI.legal) ⟨z, o, hzo⟩)
        next => exact ⟨_, rfl⟩
        next => exact ⟨_, rfl⟩

/-- Settles O44: FLATTEN, ENCODE and DECODE call the tree helpers on a loaded tree only, where they stay in their domain; the other commands
call none. -/
theorem commandsAlwaysEndUnderInvariant : Obligations.CommandsAlwaysEndUnderInvariant := by
  intro s i hI
  cases i with
  | unflatten => exact execUnflatten_ends s
  | flatten => exact execFlatten_ends hI
  | encode => exact execEncode_ends hI
  | decode => exact execDecode_ends hI
  | release => exact execRelease_ends s
  | illegal w => exact ⟨_, rfl⟩

end Sys2Proof.Machine
end

section
/-! PROOF. What a command reads of its inputs, which is the cells below the length register and nothing past it (R133), and what it leaves
of its outputs past the output length (R132). -/

open Sys2Proof

namespace Sys2Proof.Machine

/-! ### Input streams -/

theorem bitStream_get_written {m : Memory Bool} {len k : Nat} {b : Bool} (d : Nat) (hk : k < len) (h : m.cell k = some b) :
    (bitStream m len d)[k]? = some b := by
  rw [bitStream_get m len d k hk, h, Option.getD_some]

theorem symStream_get_written {m : Memory Symbol} {len k : Nat} {x : Symbol} (w d : Nat) (hk : k < len) (h : m.cell k = some x) :
    (symStream w m len d)[k]? = some x := by
  rw [symStream_get w m len d k hk, h, Option.getD_some]

/-- Settles O41: each of the four inputs is a stream of its buffer, which takes a free value only for an unwritten cell. -/
theorem inputsReadWrittenCells : Obligations.InputsReadWrittenCells := fun s _ =>
  ⟨fun _ => bitStream_get_written _, fun _ => symStream_get_written _ _, fun _ => symStream_get_written _ _,
    fun _ => bitStream_get_written _, shapeIn_len s, leavesIn_len s, symStream_length _ _ _ _, bitStream_length _ _ _⟩

/-! ### Cells past the length register -/

/-- Apply a change of the state to where a command ended. -/
def mapNext (f : State → State) : Result → Result
  | .next u => .next (f u)
  | .fault r => .fault r
  | .refused r => .refused r

/-- UNFLATTEN meets its two input buffers only through the streams (R133), and keeps them as they are (R106). -/
theorem execUnflatten_replaceInputs {s : State} {m : Memory Bool} {l : Memory Symbol}
    (hm : State.shapeIn { s with shape := m } = s.shapeIn) (hl : State.leavesIn { s with leaves := l } = s.leavesIn) :
    execUnflatten { s with shape := m, leaves := l } = mapNext (fun u => { u with shape := m, leaves := l }) (execUnflatten s) := by
  have hshape : State.shapeIn { s with shape := m, leaves := l } = s.shapeIn := hm
  have hleaves : State.leavesIn { s with shape := m, leaves := l } = s.leavesIn := hl
  simp only [execUnflatten, hshape, hleaves, apply_ite (mapNext _)]
  congr 3 -- the three checks see neither buffer
  cases unflattenStreams s.params.nodeCap s.node s.shapeIn s.leavesIn <;> rfl

/-- ENCODE meets TEXT only through its stream (R133), and keeps it as it is (R106). -/
theorem execEncode_replaceText {s : State} {m : Memory Symbol} (hm : State.textIn { s with text := m } = s.textIn) :
    execEncode { s with text := m } = mapNext (fun u => { u with text := m }) (execEncode s) := by
  have hdata : ∀ table, encodeWith table { s with text := m } = { encodeWith table s with text := m } := by
    intro table
    simp only [encodeWith, hm]
    cases encodeText table s.params.msgCap 0 s.textIn [] <;> rfl
  have htable : State.codeTable { s with text := m } = s.codeTable := rfl
  simp only [execEncode, hdata, htable, apply_ite (mapNext _)]
  congr 2 -- the two checks do not see the buffer
  rcases s.node.cell 0 with _ | _ | _
  · rfl
  · rfl
  · cases s.codeTable <;> rfl

/-- DECODE meets MSG only through its stream (R133), and keeps it as it is (R106). -/
theorem execDecode_replaceMsg {s : State} {m : Memory Bool} (hm : State.msgIn { s with msg := m } = s.msgIn) :
    execDecode { s with msg := m } = mapNext (fun u => { u with msg := m }) (execDecode s) := by
  simp only [execDecode, hm, apply_ite (mapNext _)]
  congr 2 -- the two checks do not see the buffer
  rcases s.node.cell 0 with _ | _ | _
  · rfl
  · rfl
  · rcases decodeBits s.node s.params.textCap 0 s.msgIn 0 0 [] with (_ | _) | _ <;> rfl

/-- Settles O40: a stream depends only on the cells below its length, and a command meets its input buffers only through their streams. -/
theorem cellsPastLengthDoNotMatter : Obligations.CellsPastLengthDoNotMatter := by
  intro s u
  refine ⟨fun m hm h => ?_, fun m hm h => ?_, fun m hm h => ?_, fun m hm h => ?_⟩
  · have hrun := execUnflatten_replaceInputs (s := s) (m := m) (l := s.leaves) (bitStream_congr _ _ _ _ hm) rfl
    obtain ⟨-, -, hleaves, -⟩ := exec_frame_streams h nofun
    rw [exec] at h ⊢
    rw [hrun, h, mapNext, ← hleaves]
  · have hrun := execUnflatten_replaceInputs (s := s) (m := s.shape) (l := m) rfl (symStream_congr _ _ _ _ _ hm)
    obtain ⟨hshape, -⟩ := exec_frame_streams h nofun
    rw [exec] at h ⊢
    rw [hrun, h, mapNext, ← hshape]
  · rw [exec] at h ⊢
    rw [execEncode_replaceText (symStream_congr _ _ _ _ _ hm), h, mapNext]
  · rw [exec] at h ⊢
    rw [execDecode_replaceMsg (bitStream_congr _ _ _ _ hm), h, mapNext]

/-! ### Cells past the output length -/

/-- An output leaves the cells at or past its length alone, where the length register can hold that length. -/
theorem cell_output_past {α : Type} {m : Memory α} {vs : List α} (hm : m.wf) (hlen : vs.length < 2 ^ 32) (k : Nat)
    (hk : (BitVec.ofNat 32 vs.length).toNat ≤ k) : (m.putList 0 vs).cell k = m.cell k := by
  rw [BitVec.toNat_ofNat, Nat.mod_eq_of_lt hlen] at hk
  exact cell_putList_out vs m k hm hk

theorem execFlatten_leaves_higher {s u : State} (hI : s.Inv) (h : exec .flatten s = .next u) :
    (∀ k, u.shapeLen.toNat ≤ k → u.shape.cell k = s.shape.cell k) ∧ ∀ k, u.leafLen.toNat ≤ k → u.leaves.cell k = s.leaves.cell k := by
  cases commandEnd_of_exec h with
  | report => exact ⟨fun _ _ => rfl, fun _ _ => rfl⟩
  | flattened sh lv hv hroot =>
    obtain ⟨t, ht, -⟩ := hI.tree hv
    obtain ⟨rfl, rfl⟩ : t.shape = sh ∧ t.leaves = lv := by simpa [ht.flatRoot hI.legal] using hroot
    have hsize := t.size_succ
    have h15 := size15 hI.legal ht
    exact ⟨cell_output_past hI.shapeFits.1 (by rw [CodeTree.shape_length]; omega),
      cell_output_past hI.leavesFits.1 (by rw [CodeTree.leaves_length]; omega)⟩

theorem execEncode_leaves_higher {s u : State} (hI : s.Inv) (h : exec .encode s = .next u) (hok : u.errCause = 0) :
    ∀ k, u.msgLen.toNat ≤ k → u.msg.cell k = s.msg.cell k := by
  cases commandEnd_of_exec h with
  | report => exact fun _ _ => rfl
  | encoded table out hout =>
    obtain ⟨-, -, -, -, ⟨-, hcap⟩, -⟩ := hI.legal
    have hlen : out.length ≤ s.params.msgCap := encodeText_length_le hout (Nat.zero_le _)
    exact cell_output_past hI.msgFits.1 (by omega)
  | encodeError table r herr =>
    rcases enc_causes _ _ _ _ _ _ herr with ⟨hr, -⟩ | ⟨hr, -⟩ <;> simp [hr, Cause.code] at hok

theorem execDecode_leaves_higher {s u : State} (hI : s.Inv) (h : exec .decode s = .next u) (hok : u.errCause = 0) :
    ∀ k, u.textLen.toNat ≤ k → u.text.cell k = s.text.cell k := by
  cases commandEnd_of_exec h with
  | report => exact fun _ _ => rfl
  | decoded out hv hout =>
    obtain ⟨-, -, -, -, -, -, hcap⟩ := hI.legal
    obtain ⟨hlen, -⟩ := decodeBits_out hout (Nat.zero_le _) nofun
    exact cell_output_past hI.textFits.1 (by omega)
  | decodeError r hv herr =>
    rcases dec_causes _ _ _ _ _ _ _ _ herr with ⟨hr, -⟩ | ⟨hr, -⟩ <;> simp [hr, Cause.code] at hok

/-- Settles O39: each of the three outputs is written from position 0 and fits its length register. -/
theorem outputsLeaveHigherCells : Obligations.OutputsLeaveHigherCells := by
  intro s u i hI h hok
  refine ⟨?_, ?_, ?_⟩
  · rintro rfl
    exact execFlatten_leaves_higher hI h
  · rintro rfl
    exact execEncode_leaves_higher hI h hok
  · rintro rfl
    exact execDecode_leaves_higher hI h hok

end Sys2Proof.Machine
end

section
/-! PROOF. How a pending command ends (R122, R232, R245): the host's moves keep it (R240, R243), a reset aborts it, and the engine's move
performs it. -/

open Sys2Proof

namespace Sys2Proof.Machine

/-! ### Runs -/

theorem runFor_succ {s u : State} (k : Nat) (h : step s = .next u) : runFor (k + 1) s = runFor k u := by
  simp only [runFor, h]

/-- A run can be continued by one step at its end. -/
theorem runFor_snoc {k : Nat} {s v u : State} (hrun : runFor k s = .next v) (h : step v = .next u) : runFor (k + 1) s = .next u := by
  induction k generalizing s with
  | zero =>
    cases hrun
    exact runFor_succ 0 h
  | succ k ih =>
    rw [runFor] at hrun
    split at hrun
    next s' hs => exact (runFor_succ (k + 1) hs).trans (ih hrun)
    next => cases hrun
    next => cases hrun

/-! ### Agendas of supported transactions -/

theorem agendaOk_cons (e : Event) (rest : List Event) : agendaOk (e :: rest) = (agendaOk [e] && agendaOk rest) := by
  simp [agendaOk]

theorem engineStep_goes_on {s : State} (hI : s.Inv) : ∃ u, engineStep s = .next u := by
  cases hp : s.pend with
  | none => exact ⟨s, by simp only [engineStep, hp]⟩
  | some w =>
    rw [engineStep_of_pend hp]
    exact commandsAlwaysEndUnderInvariant s (decode w) hI

/-- Under the invariant every move of an agent goes on, where a transaction is one the port supports (R76, R129). -/
theorem agentStep_goes_on {s : State} {e : Event} (hI : s.Inv) (he : agendaOk [e] = true) : ∃ u, agentStep e s = .next u := by
  cases e with
  | engine => exact engineStep_goes_on hI
  | reset => exact ⟨_, rfl⟩
  | read a => exact ⟨_, if_pos (by simpa [agendaOk] using he)⟩
  | write a v => exact ⟨_, if_pos (by simpa [agendaOk] using he)⟩

theorem step_goes_on {s : State} (hI : s.Inv) (hok : agendaOk s.agenda = true) : ∃ u, step s = .next u := by
  unfold step
  split
  next => exact engineStep_goes_on hI
  next e rest hm =>
    rw [hm, agendaOk_cons, Bool.and_eq_true] at hok
    exact agentStep_goes_on (inv_agenda hI rest) hok.1

/-! ### A step with a command pending -/

/-- In the busy window a host write keeps the agenda and the pending command, or it is a soft reset (R240, R241, R243). -/
theorem writeWord_busy {s : State} (addr : Addr) (v : Word) (hbusy : s.busy = true) :
    (writeWord s addr v).agenda = s.agenda ∧
      ((writeWord s addr v).pend = s.pend ∨ addr = 0x00020 ∧ v.getLsbD 1 = true ∧ (writeWord s addr v).pend = none) := by
  rcases write_cases s addr v with ⟨-, h⟩ | ⟨haddr, h⟩ | ⟨-, h⟩ | ⟨hidle, -⟩ | ⟨hidle, -⟩
  · rw [h]; exact ⟨rfl, .inl rfl⟩
  · rw [h, writeCtrl]
    split
    next hbit => exact ⟨rfl, .inr ⟨haddr, hbit, rfl⟩⟩
    next => exact ⟨rfl, .inl rfl⟩
  · rw [h, writeStatus_eq]; exact ⟨rfl, .inl rfl⟩
  · rw [hbusy] at hidle; cases hidle
  · rw [hbusy] at hidle; cases hidle

/-- A step that ends the pending command `w`: the engine performs it, or a reset aborts it. -/
def SettlingStep (w : Word) (s u : State) : Prop :=
  engineMove s.agenda ∧ exec (decode w) s.moved = .next u ∨ resetMove s.agenda ∧ u.pend = none

/-- A step with a command pending takes its move off the agenda, and settles the command or keeps it pending (R240, R243). -/
theorem step_of_pend {s u : State} {w : Word} (hp : s.pend = some w) (h : step s = .next u) :
    u.agenda = s.agenda.tail ∧ (SettlingStep w s u ∨ s.agenda ≠ [] ∧ u.pend = some w) := by
  cases stepMove_of_step h with
  | idle _ hnone => rw [hp] at hnone; cases hnone
  | command w' u hm hp' hx =>
    obtain rfl : w = w' := Option.some.inj (hp.symm.trans hp')
    obtain ⟨-, -, -, hagenda, -⟩ := exec_frame_control hx
    exact ⟨hagenda, .inl (.inl ⟨hm, hx⟩)⟩
  | reset rest hm => exact ⟨rfl, .inl (.inr ⟨.inl ⟨rest, hm⟩, rfl⟩)⟩
  | read a rest x hm => exact ⟨rfl, .inr ⟨by rw [hm]; exact List.cons_ne_nil _ _, hp⟩⟩
  | write a v rest hm ha =>
    have hp' : s.moved.pend = some w := hp
    obtain ⟨hagenda, hkeep | ⟨haddr, hbit, habort⟩⟩ := writeWord_busy (blockAddr a.addr) v (busy_of_pend hp')
    · exact ⟨hagenda, .inr ⟨by rw [hm]; exact List.cons_ne_nil _ _, hkeep.trans hp⟩⟩
    · exact ⟨hagenda, .inl (.inr ⟨resetMove_of_write hm ha haddr hbit, habort⟩)⟩

/-! ### Runs with a command pending -/

/-- After at most as many steps as the agenda holds moves, a pending command is still pending and the next step settles it. -/
theorem pending_until_settled {s : State} {w : Word} (hI : s.Inv) (hp : s.pend = some w) (hok : agendaOk s.agenda = true) :
    ∃ k v u, k ≤ s.agenda.length ∧ runFor k s = .next v ∧ v.pend = some w ∧ v.agenda <:+ s.agenda ∧ step v = .next u ∧
      SettlingStep w v u := by
  induction hm : s.agenda generalizing s with
  | nil =>
    obtain ⟨u, hu⟩ := step_goes_on hI hok
    obtain ⟨-, hsettle | ⟨hne, -⟩⟩ := step_of_pend hp hu
    · exact ⟨0, s, u, Nat.zero_le _, rfl, hp, hm ▸ List.suffix_rfl, hu, hsettle⟩
    · exact absurd hm hne
  | cons e rest ih =>
    obtain ⟨u, hu⟩ := step_goes_on hI hok
    obtain ⟨hagenda, hsettle | ⟨-, hkeep⟩⟩ := step_of_pend hp hu
    · exact ⟨0, s, u, Nat.zero_le _, rfl, hp, hm ▸ List.suffix_rfl, hu, hsettle⟩
    · rw [hm, List.tail_cons] at hagenda
      rw [hm, agendaOk_cons, Bool.and_eq_true] at hok
      obtain ⟨k, v, u', hk, hrun, hpv, hsuffix, hlast⟩ :=
        ih (stepKeepsInvariant s u hI hu) hkeep (hagenda ▸ hok.2) hagenda
      exact ⟨k + 1, v, u', Nat.succ_le_succ hk, (runFor_succ k hu).trans hrun, hpv, hsuffix.trans (List.suffix_cons e rest), hlast⟩

/-- A settled command is pending no longer. -/
theorem SettlingStep.pend {w : Word} {s u : State} (h : SettlingStep w s u) : u.pend = none := by
  rcases h with ⟨-, hx⟩ | ⟨-, habort⟩
  · exact (exec_completes hx).1
  · exact habort

/-- Settles O10: the step that settles the command comes no later than the agenda's end, and without a reset it is the engine's. -/
theorem pendingCommandCompletes : Obligations.PendingCommandCompletes := by
  intro s w hI hp hok
  obtain ⟨k, v, u, hk, hrun, hpv, hsuffix, hstep, hsettle⟩ := pending_until_settled hI hp hok
  refine ⟨⟨k + 1, u, Nat.succ_le_succ hk, runFor_snoc hrun hstep, hsettle.pend⟩, fun hnoreset => ?_⟩
  rcases hsettle with ⟨hm, hx⟩ | ⟨hreset, -⟩
  · obtain ⟨hpend, hdone⟩ := exec_completes hx
    exact ⟨k, v, u, hk, hrun, hpv, hm, hstep, hx, hpend, hdone⟩
  · exact absurd hreset (hnoreset _ hsuffix)

end Sys2Proof.Machine
end

section
/-! PROOF. UNFLATTEN (R140, R141): its check phase, its report for every stream that is no flattened form or does not fit, and the tree it
loads on success. -/

open Sys2Proof

namespace Sys2Proof.Machine

/-! ### The check phase -/

/-- Settles O16: each check is made where the ones before it have passed. -/
theorem unflattenChecksInOrder : Obligations.UnflattenChecksInOrder := by
  intro s
  simp only [exec, execUnflatten]
  refine ⟨fun hv => ?_, fun hv hshape => ?_, fun hv hshape hleaf => ?_⟩
  · rw [if_pos hv]
    rfl
  · rw [if_neg (by simp [hv]), if_pos hshape]
    rfl
  · rw [if_neg (by simp [hv]), if_neg (Nat.not_lt.mpr hshape), if_pos hleaf]
    rfl

/-- A successful UNFLATTEN has passed its three checks, since a failed check reports a cause. -/
theorem checks_of_exec_unflatten {s u : State} (h : exec .unflatten s = .next u) (hok : u.errCause = 0) :
    s.treeValid = false ∧ s.shapeLen.toNat ≤ s.params.shapeCap ∧ s.leafLen.toNat ≤ s.params.leafCap := by
  have failed : ∀ {cause detail : Byte}, exec .unflatten s = .next (ended cause detail 0 s) → cause = 0 := by
    intro cause detail hfail
    obtain rfl := Host.Outcome.next.inj (h.symm.trans hfail)
    exact hok
  obtain ⟨hpresent, hshape, hleaf⟩ := unflattenChecksInOrder s
  have hv : s.treeValid = false := by
    rw [← Bool.not_eq_true]
    exact fun hv => absurd (failed (hpresent hv)) (by decide)
  have hshapeLen : s.shapeLen.toNat ≤ s.params.shapeCap :=
    Nat.not_lt.mp fun hlt => absurd (failed (hshape hv hlt)) (by decide)
  exact ⟨hv, hshapeLen, Nat.not_lt.mp fun hlt => absurd (failed (hleaf hv hshapeLen hlt)) (by decide)⟩

/-! ### The data phase past its checks -/

section PastChecks

variable {s : State} (hv : s.treeValid = false) (hshape : s.shapeLen.toNat ≤ s.params.shapeCap)
  (hleaf : s.leafLen.toNat ≤ s.params.leafCap)

include hv hshape hleaf

/-- An error of the data phase is reported; node memory becomes unspecified and nothing else changes but the count of draws (R126). -/
theorem exec_unflatten_report {r : Report}
    (herr : unflattenStreams s.params.nodeCap s.node s.shapeIn s.leavesIn = .error r) :
    ∃ u, exec .unflatten s = .next u ∧ u = ended r.cause.code r.detail r.index { s with node := [], draws := u.draws } :=
  ⟨_, unfl_err s r hv hshape hleaf herr, rfl⟩

/-- A stop of the data phase inside a tree is reported, whichever of the three it is. -/
theorem exec_unflatten_stop {pre post : List Bool} {r : Report} (hw : s.node.wf) (hsh : s.shapeIn = pre ++ post)
    (hinc : IncompleteShape pre) (hzeros : zeroBits pre ≤ s.leavesIn.length) (hcap : pre.length ≤ s.params.nodeCap)
    (hstop : BuildError s.params.nodeCap (startBuild s.node (pre ++ post) s.leavesIn) pre post r) :
    ∃ u, exec .unflatten s = .next u ∧ u = ended r.cause.code r.detail r.index { s with node := [], draws := u.draws } := by
  refine exec_unflatten_report hv hshape hleaf ?_
  rw [hsh]
  exact unflattenStreams_stop _ _ _ _ _ _ hw hinc hzeros hcap hstop

end PastChecks

/-- Settles O14: each of the three ways in which the data phase stops inside a tree, at the shape position `pre.length`. -/
theorem unflattenStopsInsideTree : Obligations.UnflattenStopsInsideTree := by
  intro s pre post hv hw hshape hleaf hsh hinc hzeros hcap
  have stop := fun r => exec_unflatten_stop (r := r) hv hshape hleaf hw hsh hinc hzeros hcap
  have hstart : ∀ lv, (startBuild s.node (pre ++ post) lv).s + pre.length = pre.length := fun _ => Nat.zero_add _
  refine ⟨fun hend => ?_, fun hmore hfull => ?_, fun post' hbit hroom hnone => ?_⟩
  · have hlen : pre.length = s.shapeLen.toNat := by rw [← shapeIn_len, hsh, hend, List.append_nil]
    have hrep := stop _ (.shapeExhausted hend)
    rwa [hstart, hlen] at hrep
  · have hrep := stop _ (.capacity hmore ((Nat.zero_add _).trans hfull))
    rwa [hstart, hfull] at hrep
  · have hrep := stop _ (.leavesExhausted post' hbit (by rwa [startBuild, Nat.zero_add]) hnone)
    rwa [hstart] at hrep

/-- Settles O15: past a whole tree the data phase asks for leftover shape bits first. -/
theorem unflattenReportsLeftovers : Obligations.UnflattenReportsLeftovers := by
  intro s t r ls hv hw hshape hleaf hsh hlv hcap
  have htree := unflattenStreams_tree s.params.nodeCap s.node t r ls hw hcap
  rw [← hsh, ← hlv] at htree
  refine ⟨fun hr => ?_, fun hr hls => ?_⟩
  · rw [if_pos hr] at htree
    exact exec_unflatten_report hv hshape hleaf htree
  · rw [if_neg (not_not.mpr hr), if_pos hls] at htree
    exact exec_unflatten_report hv hshape hleaf htree

/-! ### Success -/

/-- Settles O12: nothing is left over of the tree's own flattened form, and the tree is written into empty node memory. -/
theorem unflattenLoadsTree : Obligations.UnflattenLoadsTree := by
  intro s t hl hv hempty hshape hleaf hsh hlv hcap
  have htree := unflattenStreams_tree s.params.nodeCap s.node t [] [] (hempty ▸ List.Pairwise.nil) hcap
  rw [List.append_nil, List.append_nil, ← hsh, ← hlv, if_neg (by simp), if_neg (by simp)] at htree
  refine ⟨_, unfl_ok s _ _ hv hshape hleaf htree, ?_, rfl⟩
  exact holdsTree_of_written hl hcap rfl rfl (by rw [complete_node, hempty])

/-- A successful UNFLATTEN has read the flattened form of the tree it leaves loaded. -/
theorem tree_of_exec_unflatten {s u : State} (hI : s.Inv) (h : exec .unflatten s = .next u) (hok : u.errCause = 0) :
    ∃ t, s.shapeIn = t.shape ∧ s.leavesIn = t.leaves ∧ u.HoldsTree t := by
  obtain ⟨hv, hshape, hleaf⟩ := checks_of_exec_unflatten h hok
  obtain ⟨v, hv', hiff, -⟩ := unflattenSucceedsExactlyOnWellFormed s hI hv hshape hleaf
  obtain rfl := Host.Outcome.next.inj (h.symm.trans hv')
  obtain ⟨⟨t, hsh, hlv⟩, hcap⟩ := hiff.mp hok
  rw [hsh, CodeTree.shape_length] at hcap
  obtain ⟨w, hw, ht, -⟩ := unflattenLoadsTree s t hI.legal hv (hI.noTree hv).2 hshape hleaf hsh hlv hcap
  obtain rfl := Host.Outcome.next.inj (h.symm.trans hw)
  exact ⟨t, hsh, hlv, ht⟩

/-! ### Node memory against the flattened form (R141, R143) -/

section Layout

variable {s : State} {t : CodeTree} (ht : s.HoldsTree t)

include ht

/-- A 0 bit of the shape stands exactly at the index of a leaf entry. -/
theorem State.HoldsTree.shape_false_iff (k : Nat) : t.shape[k]? = some false ↔ ∃ x, s.node.cell k = some (.leaf x) := by
  rw [layout_shape t 0, ← ht.image]
  rcases s.node.cell k with _ | _ | _ <;> simp

/-- A 1 bit of the shape stands exactly at the index of an internal entry. -/
theorem State.HoldsTree.shape_true_iff (k : Nat) : t.shape[k]? = some true ↔ ∃ z o, s.node.cell k = some (.internal z o) := by
  rw [layout_shape t 0, ← ht.image]
  rcases s.node.cell k with _ | _ | _ <;> simp

end Layout

/-- The symbol of a leaf entry; none of an internal or an unspecified one. -/
def leafSym : Option Node → Option Symbol
  | some (.leaf x) => some x
  | _ => none

/-- The leaves of a loaded tree are the symbols of the leaf entries in index order. -/
theorem State.HoldsTree.leaves_eq {s : State} {t : CodeTree} (ht : s.HoldsTree t) :
    t.leaves = (List.range s.nodeCount.toNat).filterMap fun k => leafSym (s.node.cell k) := by
  rw [layout_leaves t 0, filterMap_range, CodeTree.layout_length, ht.count]
  refine List.filterMap_congr fun k _ => ?_
  rw [ht.image]
  rcases (t.layout 0)[k]? with _ | _ | _ <;> rfl

/-- Settles O17: the tree held gives items 3 to 5, and its flattened form is as long as the two length registers say. -/
theorem unflattenLayoutFollowsStreams : Obligations.UnflattenLayoutFollowsStreams := by
  intro s u hI h hok
  obtain ⟨t, hsh, hlv, ht⟩ := tree_of_exec_unflatten hI h hok
  have hparams : u.params = s.params := (exec_frame h).1
  refine ⟨⟨t, hsh, hlv, ht⟩, ?_, ?_, fun k _ => ?_, fun k z o => ht.children (hparams ▸ hI.legal) k z o, ?_⟩
  · apply BitVec.eq_of_toNat_eq
    rw [ht.count, ← shapeIn_len, hsh, CodeTree.shape_length]
  · rw [← leavesIn_len, hsh, hlv, CodeTree.shape_zeros, CodeTree.leaves_length]
  · rw [hsh]
    exact ht.shape_true_iff k
  · rw [hlv]
    exact ht.leaves_eq

end Sys2Proof.Machine
end

section
/-! PROOF. FLATTEN (R142, R143): what it writes, what that says of node memory, and the two round trips with UNFLATTEN (R144). -/

open Sys2Proof

namespace Sys2Proof.Machine

/-! ### What FLATTEN writes -/

/-- An output from position 0 on, cell by cell (R132). -/
theorem cell_output {α : Type} {m : Memory α} (hm : m.wf) (vs : List α) (k : Nat) :
    (m.putList 0 vs).cell k = if k < vs.length then vs[k]? else m.cell k := by
  split
  next hk => exact cell_putList_in vs m k hm hk
  next hk => exact cell_putList_out vs m k hm (Nat.not_lt.mp hk)

/-- FLATTEN of a loaded tree. -/
theorem exec_flatten_of_holdsTree {s : State} {t : CodeTree} (hl : s.params.Legal) (ht : s.HoldsTree t) :
    exec .flatten s = .next (complete { s with shape := s.shape.putList 0 t.shape, shapeLen := BitVec.ofNat 32 t.size
                                               leaves := s.leaves.putList 0 t.leaves, leafLen := BitVec.ofNat 32 t.leafCount }) := by
  simp only [exec, execFlatten, ht.flatRoot hl, CodeTree.shape_length, CodeTree.leaves_length]
  rw [if_neg (by simp [ht.valid])]

/-- The flattened form of a loaded tree fits in both buffers, since NODE_CAP bounds the tree. -/
theorem State.HoldsTree.flattened_fits {s : State} {t : CodeTree} (ht : s.HoldsTree t) (hl : s.params.Legal) :
    t.size ≤ s.params.shapeCap ∧ t.leafCount ≤ s.params.leafCap := by
  have hsize := t.size_succ
  have hfits := ht.fits
  obtain ⟨-, -, ⟨hshapeCap, -⟩, ⟨hleafCap, -⟩, -⟩ := hl
  omega

/-- Settles O18: the two outputs of R142, cell by cell. -/
theorem flattenWritesTree : Obligations.FlattenWritesTree := by
  intro s t hl ht hshape hleaves
  obtain ⟨hshapeCap, hleafCap⟩ := ht.flattened_fits hl
  refine ⟨_, exec_flatten_of_holdsTree hl ht, fun k => ?_, fun k => ?_, hshapeCap, hleafCap, rfl⟩
  · rw [complete_shape, cell_output hshape, CodeTree.shape_length]
  · rw [complete_leaves, cell_output hleaves, CodeTree.leaves_length]

/-- The state FLATTEN leaves from a state that meets the invariant: its outputs are the two streams of the loaded tree, as long as the length
registers say, and no error is reported. -/
theorem flattened_streams {s : State} {t : CodeTree} (hI : s.Inv) (ht : s.HoldsTree t) :
    ∃ u, exec .flatten s = .next u ∧ u.errCause = 0 ∧ u.shapeLen.toNat = t.size ∧ u.leafLen.toNat = t.leafCount ∧
      (∀ k, u.shape.cell k = if k < t.size then t.shape[k]? else s.shape.cell k) ∧
      (∀ k, u.leaves.cell k = if k < t.leafCount then t.leaves[k]? else s.leaves.cell k) := by
  obtain ⟨u, hx, hshape, hleaves, -, -, hu⟩ := flattenWritesTree s t hI.legal ht hI.shapeFits.1 hI.leavesFits.1
  have hsize := t.size_succ
  have h15 := size15 hI.legal ht
  refine ⟨u, hx, by rw [hu]; rfl, ?_, ?_, hshape, hleaves⟩
  · rw [hu]
    exact Nat.mod_eq_of_lt (by omega)
  · rw [hu]
    exact Nat.mod_eq_of_lt (by omega)

/-- Settles O19: the flattened form written is that of the loaded tree, which node memory shows entry by entry. -/
theorem flattenReadsNodeMemoryDirectly : Obligations.FlattenReadsNodeMemoryDirectly := by
  intro s hI hv
  obtain ⟨t, ht, -⟩ := hI.tree hv
  obtain ⟨u, hx, -, hshapeLen, hleafLen, hshape, hleaves⟩ := flattened_streams hI ht
  refine ⟨u, hx, ?_, fun k hk => ?_, ?_⟩
  · exact BitVec.eq_of_toNat_eq (hshapeLen.trans ht.count.symm)
  · rw [hshape, if_pos (ht.count ▸ hk)]
    exact ⟨ht.shape_false_iff k, ht.shape_true_iff k⟩
  · have hwritten : (List.range u.leafLen.toNat).map u.leaves.cell = t.leaves.map some := by
      refine List.ext_getElem? fun k => ?_
      by_cases hk : k < t.leafCount
      · simp [hleafLen, hleaves, hk]
      · simp [hleafLen, hk]
    rw [hwritten, ht.leaves_eq, List.map_filterMap]
    refine List.filterMap_congr fun k _ => ?_
    rcases s.node.cell k with _ | _ | _ <;> rfl

/-! ### The round trips -/

/-- UNFLATTEN reads the shape stream that its buffer holds. -/
theorem shapeIn_of_cells {s : State} {bs : List Bool} (hlen : s.shapeLen.toNat = bs.length)
    (hcells : ∀ k, k < bs.length → s.shape.cell k = bs[k]?) : s.shapeIn = bs := by
  rw [State.shapeIn, hlen]
  exact bitStream_eq _ _ _ hcells

/-- UNFLATTEN reads the leaf stream that its buffer holds. -/
theorem leavesIn_of_cells {s : State} {xs : List Symbol} (hlen : s.leafLen.toNat = xs.length)
    (hcells : ∀ k, k < xs.length → s.leaves.cell k = xs[k]?) : s.leavesIn = xs := by
  rw [State.leavesIn, hlen]
  exact symStream_eq _ _ _ _ hcells

/-- The state in which RELEASE of a loaded tree completes (R180). -/
def State.released (s : State) : State := complete { s with treeValid := false, nodeCount := 0, node := [] }

theorem exec_release_of_treeValid {s : State} (hv : s.treeValid = true) : exec .release s = .next s.released := by
  simp only [exec, execRelease]
  rw [if_neg (by simp [hv])]
  rfl

/-- Settles O20: FLATTEN leaves the tree's flattened form in the buffers, RELEASE keeps them, and UNFLATTEN loads the tree of that form, whose
image in node memory is unique. -/
theorem flattenReleaseUnflattenRestoresTree : Obligations.FlattenReleaseUnflattenRestoresTree := by
  intro s hI hv
  obtain ⟨t, ht, -⟩ := hI.tree hv
  obtain ⟨u₁, hx₁, hok₁, hshapeLen, hleafLen, hshape, hleaves⟩ := flattened_streams hI ht
  obtain ⟨hparams₁, -⟩ := exec_frame_control hx₁
  obtain ⟨-, -, hvalid₁⟩ := exec_frame_slot hx₁ nofun nofun
  have hx₂ := exec_release_of_treeValid (hvalid₁.trans hv)
  obtain ⟨hshapeFits, hleavesFit⟩ := ht.flattened_fits hI.legal
  rw [← hparams₁, ← hshapeLen] at hshapeFits
  rw [← hparams₁, ← hleafLen] at hleavesFit
  have hsh := shapeIn_of_cells (s := u₁.released) (bs := t.shape)
    (hshapeLen.trans t.shape_length.symm) fun k hk => (hshape k).trans (if_pos (by rwa [← t.shape_length]))
  have hlv := leavesIn_of_cells (s := u₁.released) (xs := t.leaves)
    (hleafLen.trans t.leaves_length.symm) fun k hk => (hleaves k).trans (if_pos (by rwa [← t.leaves_length]))
  have hfits := ht.fits
  rw [← hparams₁] at hfits
  obtain ⟨u₃, hx₃, ht₃, hu₃⟩ := unflattenLoadsTree u₁.released t (hparams₁ ▸ hI.legal) rfl rfl hshapeFits hleavesFit hsh hlv hfits
  have hI₃ : u₃.Inv := inv_of_exec (inv_of_exec (inv_of_exec hI hx₁) hx₂) hx₃
  refine ⟨u₁, u₁.released, u₃, hx₁, hx₂, hx₃, hok₁, rfl, by rw [hu₃]; rfl, ht₃.valid, ?_, ?_⟩
  · exact ht.node_eq ht₃ hI.nodeFits.1 hI₃.nodeFits.1
  · exact BitVec.eq_of_toNat_eq (ht₃.count.trans ht.count.symm)

/-- Over written cells UNFLATTEN's shape stream is what SHAPE holds: no free value is drawn. -/
theorem shapeIn_getElem?_of_written {s : State} (h : s.shape.Written s.shapeLen.toNat) {k : Nat} (hk : k < s.shapeLen.toNat) :
    s.shapeIn[k]? = s.shape.cell k := by
  obtain ⟨b, hb⟩ := Option.ne_none_iff_exists'.mp (h k hk)
  rw [hb]
  exact bitStream_get_written _ hk hb

/-- Over written cells UNFLATTEN's leaf stream is what LEAVES holds. -/
theorem leavesIn_getElem?_of_written {s : State} (h : s.leaves.Written s.leafLen.toNat) {k : Nat} (hk : k < s.leafLen.toNat) :
    s.leavesIn[k]? = s.leaves.cell k := by
  obtain ⟨x, hx⟩ := Option.ne_none_iff_exists'.mp (h k hk)
  rw [hx]
  exact symStream_get_written _ _ hk hx

/-- Settles O21: the tree loaded has the streams read as its flattened form, so FLATTEN writes each cell with what it holds. -/
theorem unflattenFlattenRestoresStreams : Obligations.UnflattenFlattenRestoresStreams := by
  intro s u₁ hI hwritten hwrittenLeaves hx₁ hok₁
  obtain ⟨t, hsh, hlv, ht⟩ := tree_of_exec_unflatten hI hx₁ hok₁
  obtain ⟨hshape₁, -, hleaves₁, -⟩ := exec_frame_streams hx₁ nofun
  have hI₁ := inv_of_exec hI hx₁
  obtain ⟨u₂, hx₂, hok₂, hshapeLen, hleafLen, hshape, hleaves⟩ := flattened_streams hI₁ ht
  have hI₂ := inv_of_exec hI₁ hx₂
  have hsize : t.size = s.shapeLen.toNat := by rw [← t.shape_length, ← hsh, shapeIn_len]
  have hcount : t.leafCount = s.leafLen.toNat := by rw [← t.leaves_length, ← hlv, leavesIn_len]
  refine ⟨u₂, hx₂, hok₂, ?_, ?_, ?_, ?_⟩
  · refine ext_of_wf _ _ hI₂.shapeFits.1 hI.shapeFits.1 fun k => ?_
    rw [hshape, hshape₁, hsize, ← hsh]
    exact ite_eq_right_iff.mpr (shapeIn_getElem?_of_written hwritten)
  · refine ext_of_wf _ _ hI₂.leavesFits.1 hI.leavesFits.1 fun k => ?_
    rw [hleaves, hleaves₁, hcount, ← hlv]
    exact ite_eq_right_iff.mpr (leavesIn_getElem?_of_written hwrittenLeaves)
  · exact BitVec.eq_of_toNat_eq (hshapeLen.trans hsize)
  · exact BitVec.eq_of_toNat_eq (hleafLen.trans hcount)

end Sys2Proof.Machine
end

section
/-! PROOF. The text codec: the code table (R161, R165), what ENCODE and DECODE write or report (R162, R163), and their round trip (R164). -/

open Sys2Proof

namespace Sys2Proof.Machine

/-! ### The code table -/

/-- `codeOf` is the library's search for the first pair that holds the symbol. -/
theorem codeOf_eq_find? (table : List (Symbol × List Bool)) (x : Symbol) :
    codeOf table x = (table.find? fun e => e.1 = x).map Prod.snd := by
  induction table with
  | nil => rfl
  | cons e table ih =>
    obtain ⟨y, q⟩ := e
    by_cases hy : y = x
    · simp [codeOf, hy]
    · simp [codeOf, hy, ih]

/-- The code of a symbol stands in the table with no earlier pair for the symbol (R161). -/
theorem codeOf_eq_some_iff (table : List (Symbol × List Bool)) (x : Symbol) (p : List Bool) :
    codeOf table x = some p ↔ ∃ before after, table = before ++ (x, p) :: after ∧ ∀ e ∈ before, e.1 ≠ x := by
  simp [codeOf_eq_find?, List.find?_eq_some_iff_append]

/-- Settles O24: the walk of R131 over a loaded tree meets its leaves in pre-order, and `codeOf` takes the first that fits. -/
theorem codeIsPathOfFirstLeaf : Obligations.CodeIsPathOfFirstLeaf := fun _ t hl ht =>
  ⟨ht.codeTable hl, t.paths_syms, codeOf_eq_some_iff t.paths⟩

/-- Settles O29: a path runs from the root to a leaf, so it ends where no other passes, and the depth of a tree of `n` nodes is at most
`(n - 1) / 2`. -/
theorem codesArePrefixFreeAndBounded : Obligations.CodesArePrefixFreeAndBounded := by
  intro s t hl ht hd
  refine ⟨t.paths, ht.codeTable hl, t.paths_prefixFree, fun ⟨x, p⟩ hp => ?_⟩
  have hne : 0 < p.length := List.length_pos_iff.mpr (t.path_ne_nil x p hd hp)
  have hlen := t.path_length x p hp
  have hdepth := t.depth_bound
  have hcount := ht.count
  have hfits := ht.fits
  simp only [Params.maxDepth]
  omega

/-! ### The check phase -/

/-- Settles O27: each check is made where the one before it has passed, and a one-leaf tree has its leaf at index 0. -/
theorem codecChecksInOrder : Obligations.CodecChecksInOrder := by
  intro s hv
  have hroot : ∀ {x}, s.HoldsTree (.leaf x) → s.node.cell 0 = some (.leaf x) := fun ht => ht.image 0
  simp only [exec, execEncode, execDecode]
  have hpresent : ¬ s.treeValid = false := by simp [hv]
  rw [if_neg hpresent, if_neg hpresent]
  refine ⟨fun hlen => ?_, fun hlen => ?_, fun x ht hlen => ?_, fun x ht hlen => ?_⟩
  · rw [if_pos hlen]
    rfl
  · rw [if_pos hlen]
    rfl
  · rw [if_neg (Nat.not_lt.mpr hlen), hroot ht]
    rfl
  · rw [if_neg (Nat.not_lt.mpr hlen), hroot ht]
    rfl

/-! ### ENCODE past its checks -/

section Encode

variable {s : State} {t : CodeTree} (hl : s.params.Legal) (ht : s.HoldsTree t) (hd : t.degenerate = false)
  (hlen : s.textLen.toNat ≤ s.params.textCap)

include hl ht hd hlen

theorem exec_encode_ok {out : List Bool} (hok : encodeText t.paths s.params.msgCap 0 s.textIn [] = .ok out) :
    exec .encode s = .next (complete { s with msg := s.msg.putList 0 out, msgLen := BitVec.ofNat 32 out.length
                                              draws := drawnByEncode s }) := by
  rw [enc_eq s t hl ht hd hlen, encodeWith, hok]

/-- An error of the data phase is reported; MSG becomes unspecified, MSG_LEN 0, and nothing else changes but the count of draws (R126). -/
theorem exec_encode_report {r : Report} (herr : encodeText t.paths s.params.msgCap 0 s.textIn [] = .error r) :
    ∃ u, exec .encode s = .next u ∧ u = ended r.cause.code r.detail r.index { s with msg := [], msgLen := 0, draws := u.draws } := by
  refine ⟨_, enc_eq s t hl ht hd hlen, ?_⟩
  rw [encodeWith, herr]
  rfl

end Encode

/-- ENCODE's data phase on a text that begins with symbols whose codes fit goes on after them, with their codes as output (R162). -/
theorem encodeText_after_codes {t : CodeTree} {cap : Nat} {xs : List Symbol} {codes : List (List Bool)} (hc : CodesOf t xs codes)
    (hcap : codes.flatten.length ≤ cap) (rest : List Symbol) :
    encodeText t.paths cap 0 (xs ++ rest) [] = encodeText t.paths cap xs.length rest codes.flatten := by
  simpa using encodeText_codes t.paths cap 0 xs rest codes [] hc (by simpa using hcap)

/-- Settles O22: the data phase runs through the whole text, and its output fits the length register. -/
theorem encodeWritesCodes : Obligations.EncodeWritesCodes := by
  intro s t codes hl ht hd hmsg hlen hcodes hcap
  have hok := encodeText_after_codes hcodes hcap []
  rw [List.append_nil, encodeText] at hok
  have hx := exec_encode_ok hl ht hd hlen hok
  obtain ⟨-, -, -, -, ⟨-, hmsgCap⟩, -⟩ := hl
  exact ⟨_, hx, cell_output hmsg codes.flatten, Nat.mod_eq_of_lt (by omega), rfl⟩

/-- Settles O23: the data phase reaches `x` with the codes before it as output, and looks for its code before it looks for room. -/
theorem encodeReportsFirstBadSymbol : Obligations.EncodeReportsFirstBadSymbol := by
  intro s t codes xs rest x hl ht hd hlen htext hcodes hcap
  have hreach := encodeText_after_codes hcodes hcap (x :: rest)
  rw [← htext, encodeText] at hreach
  refine ⟨fun hx => ?_, fun p hx hfull => ?_⟩
  · rw [hx] at hreach
    exact exec_encode_report hl ht hd hlen hreach
  · simp only [hx, if_pos hfull] at hreach
    exact exec_encode_report hl ht hd hlen hreach

/-! ### DECODE past its checks -/

/-- DECODE's data phase on a message that begins with whole codes that fit goes on after them from the root, with their symbols as output
(R163). -/
theorem decodeBits_after_codes {s : State} {t : CodeTree} (hl : s.params.Legal) (ht : s.HoldsTree t) (hd : t.degenerate = false)
    {ps : List (Symbol × List Bool)} {q : List Bool} (hps : LeavesOf t ps) (hmsg : s.msgIn = bitsOf ps ++ q)
    (hcap : ps.length ≤ s.params.textCap) :
    decodeBits s.node s.params.textCap 0 s.msgIn 0 0 [] =
      decodeBits s.node s.params.textCap (bitsOf ps).length q 0 (bitsOf ps).length (ps.map Prod.fst) := by
  rw [hmsg]
  simpa using decodeBits_leaves s.node s.params.textCap t 0 ps q [] ht.subtree (size15 hl ht) hd hps (by simpa using hcap)

/-- Settles O25: the data phase is back at the root when the message ends, and its output fits the length register. -/
theorem decodeWritesSymbols : Obligations.DecodeWritesSymbols := by
  intro s t ps hl ht hd htext hlen hps hmsg hcap
  have hok := decodeBits_after_codes (q := []) hl ht hd hps (by rw [hmsg, List.append_nil]) hcap
  rw [decodeBits, if_neg (by simp)] at hok
  obtain ⟨-, -, -, -, -, -, htextCap⟩ := hl
  refine ⟨_, dec_ok s t ht hd hlen _ hok, fun k => ?_, ?_, rfl⟩
  · rw [complete_text, cell_output htext, List.length_map]
  · rw [complete_textLen, List.length_map]
    exact Nat.mod_eq_of_lt (by omega)

/-- Settles O26: after the whole codes the data phase walks down from the root; it ends on the way, or reaches a leaf when TEXT is full. -/
theorem decodeReportsFirstError : Obligations.DecodeReportsFirstError := by
  intro s t ps q hl ht hd hlen hps hmsg
  have h15 : 0 + t.size ≤ 2 ^ 15 := by rw [Nat.zero_add]; exact size15 hl ht
  refine ⟨fun hcap ⟨hq, x, r, hr, hx⟩ => ?_, fun x p rest hfull hx hq => ?_⟩
  · have hreach := decodeBits_after_codes hl ht hd hps hmsg hcap
    exact ⟨_, dec_err s t ht hd hlen _ (hreach.trans
      (decodeBits_unfinished _ _ t 0 _ _ x q r _ ht.subtree h15 hr hx (.inl hq))), rfl⟩
  · have hreach := decodeBits_after_codes hl ht hd hps hmsg hfull.le
    have hpath := decodeBits_path s.node s.params.textCap t 0 (bitsOf ps).length (bitsOf ps).length x p rest (ps.map Prod.fst)
      ht.subtree h15 hx (t.path_ne_nil x p hd hx)
    rw [if_pos (by rw [List.length_map, hfull])] at hpath
    rw [hq] at hreach
    exact ⟨_, dec_err s t ht hd hlen _ (hreach.trans hpath), rfl⟩

/-! ### The round trip -/

/-- DECODE reads the message that its buffer holds. -/
theorem msgIn_of_cells {s : State} {bs : List Bool} (hlen : s.msgLen.toNat = bs.length)
    (hcells : ∀ k, k < bs.length → s.msg.cell k = bs[k]?) : s.msgIn = bs := by
  rw [State.msgIn, hlen]
  exact bitStream_eq _ _ _ hcells

/-- Over written cells ENCODE's text is what TEXT holds: no free value is drawn. -/
theorem textIn_getElem?_of_written {s : State} (h : s.text.Written s.textLen.toNat) {k : Nat} (hk : k < s.textLen.toNat) :
    s.textIn[k]? = s.text.cell k := by
  obtain ⟨x, hx⟩ := Option.ne_none_iff_exists'.mp (h k hk)
  rw [hx]
  exact symStream_get_written _ _ hk hx

/-- A memory within its capacity has no more than that many cells written from index 0 on. -/
theorem Memory.Written.le_of_fits {α : Type} {m : Memory α} {n cap : Nat} (h : m.Written n) (hfits : m.Fits cap) : n ≤ cap :=
  Nat.not_lt.mp fun hlt => h cap hlt (hfits.2 cap le_rfl)

/-- Settles O28: ENCODE leaves in MSG the paths of leaves that hold the text's symbols, so DECODE writes each TEXT cell with what it holds. -/
theorem encodeDecodeRestoresText : Obligations.EncodeDecodeRestoresText := by
  intro s t codes hI ht hd hwritten hcodes hcap
  have hlen := hwritten.le_of_fits hI.textFits
  obtain ⟨hps, hsyms, hpaths⟩ := codes_leaves t s.textIn codes hcodes
  have hcount : (s.textIn.zip codes).length = s.textLen.toNat := by
    rw [← List.length_map, hsyms]
    exact symStream_length _ _ _ _
  obtain ⟨u₁, hx₁, hmsg₁, hmsgLen₁, hu₁⟩ := encodeWritesCodes s t codes hI.legal ht hd hI.msgFits.1 hlen hcodes hcap
  have hI₁ := inv_of_exec hI hx₁
  obtain ⟨hparams₁, -⟩ := exec_frame_control hx₁
  obtain ⟨hnode₁, hnodeCount₁, hvalid₁⟩ := exec_frame_slot hx₁ nofun nofun
  obtain ⟨htext₁, -⟩ := exec_frame_text hx₁ nofun
  have ht₁ := ht.congr hvalid₁ hnodeCount₁ hparams₁ hnode₁
  have hmsgIn : u₁.msgIn = bitsOf (s.textIn.zip codes) := by
    rw [bitsOf, hpaths]
    exact msgIn_of_cells hmsgLen₁ fun k hk => (hmsg₁ k).trans (if_pos hk)
  obtain ⟨u₂, hx₂, htext₂, htextLen₂, hu₂⟩ := decodeWritesSymbols u₁ t _ hI₁.legal ht₁ hd hI₁.textFits.1
    (by rwa [hmsgLen₁, hparams₁]) hps hmsgIn (by rwa [hcount, hparams₁])
  have hI₂ := inv_of_exec hI₁ hx₂
  refine ⟨u₁, u₂, hx₁, by rw [hu₁]; rfl, hx₂, by rw [hu₂]; rfl, ?_, ?_⟩
  · refine ext_of_wf _ _ hI₂.textFits.1 hI.textFits.1 fun k => ?_
    rw [htext₂, htext₁, hcount, hsyms]
    exact ite_eq_right_iff.mpr (textIn_getElem?_of_written hwritten)
  · exact BitVec.eq_of_toNat_eq (htextLen₂.trans hcount)

end Sys2Proof.Machine
end

section
/-! PROOF. RELEASE (R180): its check for a loaded tree, and the completion without error that frees the tree. -/

open Sys2Proof

namespace Sys2Proof.Machine

/-- A completion without error is the end that reports 0 in each error register (R124). -/
theorem complete_eq_ended (s : State) : complete s = ended 0 0 0 s := rfl

/-- RELEASE without a tree fails its check and only takes the error (R180). -/
theorem exec_release_of_not_treeValid {s : State} (hv : s.treeValid = false) : exec .release s = .next (ended 0x02 0 0 s) := by
  simp only [exec, execRelease]
  rw [if_pos hv]
  rfl

/-- Settles O30: RELEASE's one check splits the states, and a tree that passes it is freed by a completion without error. -/
theorem releaseFreesTree : Obligations.ReleaseFreesTree := by
  intro s
  refine ⟨fun hv => ?_, exec_release_of_not_treeValid⟩
  rw [exec_release_of_treeValid hv, State.released, complete_eq_ended]

end Sys2Proof.Machine
end

section
/-! PROOF. The reports of the commands (R200 to R205): the row of R204 for each command, that every command that ends reports an entry of
its row, and which entries carry a position (R203); and the commands without a tree (R205). -/

open Sys2Proof

namespace Sys2Proof.Machine

/-! ### The rows of R204 -/

/-- The causes and details with which a command ends without a position: its success and the errors of its check phase (R203, R205). -/
def plainReports : Instr → List (Cause × Byte)
  | .unflatten => [(.none, 0), (.treePresent, 0), (.badLength, 1), (.badLength, 2)]
  | .flatten => [(.none, 0), (.noTree, 0)]
  | .encode => [(.none, 0), (.noTree, 0), (.badLength, 4), (.degenerateTree, 0)]
  | .decode => [(.none, 0), (.noTree, 0), (.badLength, 3), (.degenerateTree, 0)]
  | .release => [(.none, 0), (.noTree, 0)]
  | .illegal _ => [(.illegalCommand, 1), (.illegalCommand, 2)]

/-- The causes and details a command's data phase can raise, each with a position (R203). -/
def dataReports : Instr → List (Cause × Byte)
  | .unflatten => [(.malformedTree, 1), (.malformedTree, 2), (.malformedTree, 3), (.malformedTree, 4), (.capacity, 1)]
  | .encode => [(.unknownSymbol, 0), (.capacity, 3)]
  | .decode => [(.malformedBitstream, 0), (.capacity, 4)]
  | .flatten => []
  | .release => []
  | .illegal _ => []

/-- A completion left the state, with a report of the command's row: index 0 unless the data phase raised it (R124, R125). -/
inductive EndsInRow (i : Instr) : State → Prop where
  | plain (v : State) {cause : Cause} {detail : Byte} (h : (cause, detail) ∈ plainReports i) :
      EndsInRow i (raiseError ⟨cause, detail, 0⟩ v)
  | data (v : State) {r : Report} (h : (r.cause, r.detail) ∈ dataReports i) : EndsInRow i (raiseError r v)

/-- A completion without error leaves the registers as the report of cause NONE would (R124). -/
theorem EndsInRow.success {i : Instr} (v : State) (h : (.none, 0) ∈ plainReports i) : EndsInRow i (complete v) :=
  .plain v h

/-! ### The reports of the data phases -/

theorem mem_dataReports_unflatten {cap : Nat} {m : Memory Node} {sh : List Bool} {lv : List Symbol} {r : Report}
    (h : unflattenStreams cap m sh lv = .error r) : (r.cause, r.detail) ∈ dataReports .unflatten := by
  have hcauses := unfl_causes _ _ _ _ _ h
  simp only [dataReports, List.mem_cons, Prod.mk.injEq]
  tauto

theorem mem_dataReports_encode {table : List (Symbol × List Bool)} {cap i : Nat} {xs : List Symbol} {out : List Bool} {r : Report}
    (h : encodeText table cap i xs out = .error r) : (r.cause, r.detail) ∈ dataReports .encode := by
  have hcauses := enc_causes _ _ _ _ _ _ h
  simp only [dataReports, List.mem_cons, Prod.mk.injEq]
  tauto

theorem mem_dataReports_decode {m : Memory Node} {cap j start : Nat} {bs : List Bool} {cur : NodeIdx} {out : List Symbol} {r : Report}
    (h : decodeBits m cap j bs cur start out = .error (.raise r)) : (r.cause, r.detail) ∈ dataReports .decode := by
  have hcauses := dec_causes _ _ _ _ _ _ _ _ h
  simp only [dataReports, List.mem_cons, Prod.mk.injEq]
  tauto

/-- The causes of the data phases are the codes from 6 on (R201, R203). -/
theorem six_le_code_of_mem_dataReports {i : Instr} {cause : Cause} {detail : Byte} (h : (cause, detail) ∈ dataReports i) :
    6 ≤ cause.code := by
  have hcode : ∀ e ∈ dataReports i, 6 ≤ e.1.code := by
    cases i with
    | unflatten => decide
    | encode => decide
    | decode => decide
    | flatten => exact nofun
    | release => exact nofun
    | illegal => exact nofun
  exact hcode _ h

/-! ### Every command ends in its row -/

theorem endsInRow_execUnflatten {s u : State} (h : execUnflatten s = .next u) : EndsInRow .unflatten u := by
  unfold execUnflatten at h
  split at h
  next => cases h; exact .plain s (by decide)
  next =>
    split at h
    next => cases h; exact .plain s (by decide)
    next =>
      split at h
      next => cases h; exact .plain s (by decide)
      next =>
        split at h
        next r herr => cases h; exact .data _ (mem_dataReports_unflatten herr)
        next => cases h; exact .success _ (by decide)

theorem endsInRow_execFlatten {s u : State} (h : execFlatten s = .next u) : EndsInRow .flatten u := by
  unfold execFlatten at h
  split at h
  next => cases h; exact .plain s (by decide)
  next =>
    split at h
    next => cases h
    next => cases h; exact .success _ (by decide)

theorem endsInRow_encodeWith (s : State) (table : List (Symbol × List Bool)) : EndsInRow .encode (encodeWith table s) := by
  unfold encodeWith
  split
  next r herr => exact .data _ (mem_dataReports_encode herr)
  next => exact .success _ (by decide)

theorem endsInRow_execEncode {s u : State} (h : execEncode s = .next u) : EndsInRow .encode u := by
  unfold execEncode at h
  split at h
  next => cases h; exact .plain s (by decide)
  next =>
    split at h
    next => cases h; exact .plain s (by decide)
    next =>
      split at h
      next => cases h
      next => cases h; exact .plain s (by decide)
      next =>
        split at h
        next => cases h
        next table _ => cases h; exact endsInRow_encodeWith s table

theorem endsInRow_execDecode {s u : State} (h : execDecode s = .next u) : EndsInRow .decode u := by
  unfold execDecode at h
  split at h
  next => cases h; exact .plain s (by decide)
  next =>
    split at h
    next => cases h; exact .plain s (by decide)
    next =>
      split at h
      next => cases h
      next => cases h; exact .plain s (by decide)
      next =>
        split at h
        next => cases h
        next r herr => cases h; exact .data _ (mem_dataReports_decode herr)
        next => cases h; exact .success _ (by decide)

theorem endsInRow_execRelease {s u : State} (h : execRelease s = .next u) : EndsInRow .release u := by
  unfold execRelease at h
  split at h
  next => cases h; exact .plain s (by decide)
  next => cases h; exact .success _ (by decide)

/-- An illegal word has one of the two details of R202. -/
theorem illegalDetail_mem_plainReports (w : Word) : (.illegalCommand, illegalDetail w) ∈ plainReports (.illegal w) := by
  rw [illegalDetail]
  split
  next => exact .tail _ (.head _)
  next => exact .head _

/-- Every command that ends reports an entry of its row. -/
theorem endsInRow_of_exec {s u : State} {i : Instr} (h : exec i s = .next u) : EndsInRow i u := by
  cases i with
  | unflatten => exact endsInRow_execUnflatten h
  | flatten => exact endsInRow_execFlatten h
  | encode => exact endsInRow_execEncode h
  | decode => exact endsInRow_execDecode h
  | release => exact endsInRow_execRelease h
  | illegal w => cases h; exact .plain s (illegalDetail_mem_plainReports w)

/-- The error registers hold an entry of the whole row, the cause by its code (R47, R48). -/
theorem EndsInRow.mem_row {i : Instr} {u : State} (h : EndsInRow i u) :
    (u.errCause, u.errDetail) ∈ (plainReports i ++ dataReports i).map fun e => (e.1.code, e.2) := by
  cases h with
  | plain v hmem => exact List.mem_map_of_mem (List.mem_append_left _ hmem)
  | data v hmem => exact List.mem_map_of_mem (List.mem_append_right _ hmem)

/-- Settles O36: every end is in the command's row, and the rows by code are the lists of R204. -/
theorem causesOfEachCommand : Obligations.CausesOfEachCommand := by
  intro s u i h
  have hrow := (endsInRow_of_exec h).mem_row
  cases i with
  | _ => exact hrow

/-- Settles O37: an end without a position reports index 0, and the codes of the data phase lie past those listed. -/
theorem indexIsZeroWithoutPosition : Obligations.IndexIsZeroWithoutPosition := by
  intro s u i h hcause
  cases endsInRow_of_exec h with
  | plain v hmem => rfl
  | data v hmem =>
    have hlow : ∀ c ∈ ([0x00, 0x01, 0x02, 0x03, 0x04, 0x05] : List Byte), c < 6 := by decide
    exact absurd (hlow _ hcause) (BitVec.not_lt.mpr (six_le_code_of_mem_dataReports hmem))

/-! ### Commands without a tree -/

/-- Settles O31: the check for a tree is the first of each of the four commands (R205). -/
theorem commandsWithoutTreeReportNoTree : Obligations.CommandsWithoutTreeReportNoTree := by
  intro s i hv hi
  rcases hi with rfl | rfl | rfl | rfl
  · exact if_pos hv
  · exact if_pos hv
  · exact if_pos hv
  · exact exec_release_of_not_treeValid hv

end Sys2Proof.Machine
end

section
/-! PROOF. The interrupt output after a host write (R209, R210), and the moves of an idle block and of the host (R10, R218). -/

open Sys2Proof

namespace Sys2Proof.Machine

/-! ### The interrupt output -/

/-- irq is low while DONE is (R209). -/
theorem irq_of_not_done {s : State} (h : s.done = false) : s.irq = false := by
  rw [State.irq, h, Bool.and_false]

/-- Settles O60: the rules of CMD, STATUS and CTRL give the next state; issue, acknowledgement and reset clear its DONE. -/
theorem irqFollowsEnableAndDone : Obligations.IrqFollowsEnableAndDone := by
  intro s u a v ha h
  refine ⟨fun haddr hidle => ?_, fun haddr hack => ?_, fun haddr hbit => ?_, fun haddr hbit => ?_⟩
  · obtain ⟨hissue, -⟩ := cmdWriteIssuesCommand s a v ha haddr
    cases h.symm.trans (hissue hidle)
    exact irq_of_not_done rfl
  · obtain ⟨hstatus, -⟩ := statusRegister s a v ha haddr
    cases h.symm.trans hstatus
    exact irq_of_not_done (by simp [hack])
  · obtain ⟨-, hctrl, -⟩ := ctrlRegister s a v ha haddr
    cases h.symm.trans (hctrl hbit)
    rfl
  · obtain ⟨hreset, -⟩ := ctrlRegister s a v ha haddr
    cases h.symm.trans (hreset hbit)
    exact irq_of_not_done rfl

/-! ### Moves -/

/-- Without a pending command the engine's step changes nothing (R218). -/
theorem engineStep_of_idle {s : State} (hp : s.pend = none) : engineStep s = .next s := by
  simp only [engineStep, hp]

/-- With an empty agenda the step is the engine's. -/
theorem step_of_agenda_nil {s : State} (hm : s.agenda = []) : step s = engineStep s := by
  simp only [step, hm]

/-- The first move of the agenda is performed on the state with it taken off. -/
theorem step_of_agenda_cons {s : State} {e : Event} {rest : List Event} (hm : s.agenda = e :: rest) :
    step s = agentStep e { s with agenda := rest } := by
  simp only [step, hm]

/-- Settles O7: the engine moves in the first two cases and finds nothing pending; in the others the move is the transaction. -/
theorem idleAndHostMoves : Obligations.IdleAndHostMoves := by
  intro s rest
  refine ⟨fun hp hm => ?_, fun hp hm => ?_, fun a hm => step_of_agenda_cons hm, fun a v hm => step_of_agenda_cons hm⟩
  · rw [step_of_agenda_nil hm, engineStep_of_idle hp]
  · rw [step_of_agenda_cons hm]
    exact engineStep_of_idle (s := { s with agenda := rest }) hp

end Sys2Proof.Machine
end

section
/-! PROOF. Reset (R230 to R232) and the busy window: the pending command kept (R240, R243), writes dropped (R241), reads hidden (R242). -/

open Sys2Proof

namespace Sys2Proof.Machine

/-! ### Reset -/

/-- Settles O8: either source performs the reset operation, on the state with the move taken off. -/
theorem resetRestoresEveryValue : Obligations.ResetRestoresEveryValue := by
  intro s rest
  refine ⟨fun hm => ?_, fun a v hm ha haddr hbit => ?_⟩
  · rw [step_of_agenda_cons hm]
    rfl
  · obtain ⟨hreset, -⟩ := ctrlRegister { s with agenda := rest } a v ha haddr
    rw [step_of_agenda_cons hm]
    exact hreset hbit

/-! ### The pending command -/

/-- Settles O11: a step with a command pending keeps it or settles it, and only the engine's move or a reset settles it. -/
theorem pendingCommandIsKept : Obligations.PendingCommandIsKept := by
  intro s u w hp h hengine hreset
  obtain ⟨-, (⟨hm, -⟩ | ⟨hm, -⟩) | ⟨-, hkeep⟩⟩ := step_of_pend hp h
  · exact absurd hm hengine
  · exact absurd hm hreset
  · exact hkeep

/-! ### Writes in the busy window -/

/-- Settles O48: no other address takes its write in the busy window, and these two registers have theirs. -/
theorem busyWriteIsDropped : Obligations.BusyWriteIsDropped := by
  intro s a v ha hbusy
  refine ⟨fun hctrl hstatus => hostWrite_dropped v ha rfl hbusy ?_, fun haddr => ?_, fun haddr => ?_⟩
  · rw [← Bool.not_eq_true]
    intro hwritable
    exact (wwb _ hwritable).elim hctrl hstatus
  · exact hostWrite_writeReg (r := .ctrl) v ha haddr (by decide) (.inr rfl)
  · exact hostWrite_writeReg (r := .status) v ha haddr (by decide) (.inr rfl)

/-! ### Reads in the busy window -/

/-- A supported read of a register that the busy window hides answers the free word (R242). -/
theorem answers_hiddenReg {s : State} {a : Access} {addr : Addr} {r : Reg} (ha : a.ok = true) (haddr : blockAddr a.addr = addr)
    (hr : RegStandsAt addr r) (hbusy : s.busy = true) (hhidden : r.hiddenWhileBusy = true) :
    Answers s a (Config.freeWord s.draws) := by
  obtain ⟨hregion, hreg⟩ := hr
  exact answers_of_readWord ha (by simp [haddr, readWord, hregion, hreg, hbusy, hhidden])

/-- The addresses from the first window to the last are neither in the register block nor unmapped (R73). -/
theorem region_window {addr : Addr} (hlow : 0x10000 ≤ addr.toNat) (hhigh : addr.toNat < 0x60000) :
    regionOf addr ≠ .regs ∧ regionOf addr ≠ .unmapped := by
  have hnibble : (addr.extractLsb' 16 4).toNat = addr.toNat / 0x10000 := by
    simp only [BitVec.extractLsb'_toNat, Nat.shiftRight_eq_div_pow]
    omega
  rw [regionOf, hnibble]
  have hwindow : 1 ≤ addr.toNat / 0x10000 ∧ addr.toNat / 0x10000 ≤ 5 := by omega
  generalize addr.toNat / 0x10000 = n at hwindow
  obtain ⟨hone, hfive⟩ := hwindow
  interval_cases n <;> decide

/-- In the busy window every window word reads the free word (R242). -/
theorem readWord_window_busy {s : State} {addr : Addr} (free : Word) (hlow : 0x10000 ≤ addr.toNat) (hhigh : addr.toNat < 0x60000)
    (hbusy : s.busy = true) : readWord s free addr = free := by
  obtain ⟨hregs, hunmapped⟩ := region_window hlow hhigh
  cases hregion : regionOf addr with
  | regs => exact absurd hregion hregs
  | unmapped => exact absurd hregion hunmapped
  | shapeW | leavesW | msgW | textW | nodeW => simp [readWord, hregion, hbusy]

/-- Settles O57: the hidden registers and the windows answer the free word, and the error registers were cleared at issue (R60). -/
theorem busyReads : Obligations.BusyReads := by
  intro s a hI ha hbusy
  have hidden : ∀ (addr : Addr) (r : Reg), RegStandsAt addr r → r.hiddenWhileBusy = true → blockAddr a.addr = addr →
      Answers s a (Config.freeWord s.draws) := fun addr r hr hhidden haddr => answers_hiddenReg ha haddr hr hbusy hhidden
  obtain ⟨-, hcause, hdetail, hindex⟩ := hI.busyClear hbusy
  obtain ⟨-, -, -, -, -, -, -, hreadCause, hreadDetail, hreadIndex, -⟩ := readOnlyRegisters s a 0 hI.legal ha
  rw [hcause] at hreadCause
  rw [hdetail] at hreadDetail
  rw [hindex] at hreadIndex
  refine ⟨fun hmem => ?_, fun hlow hhigh => answers_of_readWord ha (readWord_window_busy _ hlow hhigh hbusy), fun hmem => ?_⟩
  · simp only [List.mem_cons, List.not_mem_nil, or_false] at hmem
    rcases hmem with haddr | haddr | haddr | haddr | haddr
    · exact hidden _ .shapeLen (by decide) rfl haddr
    · exact hidden _ .leafLen (by decide) rfl haddr
    · exact hidden _ .msgLen (by decide) rfl haddr
    · exact hidden _ .textLen (by decide) rfl haddr
    · exact hidden _ .nodeCount (by decide) rfl haddr
  · simp only [List.mem_cons, List.not_mem_nil, or_false] at hmem
    rcases hmem with haddr | haddr | haddr
    · exact hreadCause haddr
    · exact hreadDetail haddr
    · exact hreadIndex haddr

end Sys2Proof.Machine
end
